-- ==== Sys2Proof/Word.lean ====
section
/-! DEFINITION. The word types: 32-bit data words (00_scope.md R4, R5) and 64-bit instruction
words (30_encoding.md R60). -/

namespace Sys2Proof

/-- A register value, memory cell, immediate or address: 32 bits, read as a two's-complement signed
integer by `BitVec.toInt` (00_scope.md R4, R5). -/
abbrev Word := BitVec 32

/-- One instruction word of the program space: 64 bits (30_encoding.md R60). -/
abbrev InstrWord := BitVec 64

end Sys2Proof
end

