-- ==== Sys2Proof/Config.lean ====
section
/-! DEFINITION. The parameters of the core that the spec fixes (00_scope.md R4). Nothing here is
free: the spec leaves no value to an implementation (93_implementation_defined.md, parts 1 and 2). -/

namespace Sys2Proof.Config

/-- `MEMSIZE`, the number of data memory cells (00_scope.md R4). -/
def memSize : Nat := 2048

/-- `INT_MIN`, the least representable value (00_scope.md R4). -/
def intMin : Int := -2147483648

/-- `INT_MAX`, the greatest representable value (00_scope.md R4). -/
def intMax : Int := 2147483647

/-- The greatest legal `PLEN` (00_scope.md R4, decision D4). -/
def maxPlen : Nat := 2147483647

end Sys2Proof.Config
end

