-- ==== Sys2Proof/Syntax.lean ====
section
/-! DEFINITION. The instruction set as syntax: registers, opcodes, operand formats, the 17
instructions, and the decoder's three faults. -/

namespace Sys2Proof

/-- The closed set of six registers, `P` the program counter (10_state.md R10, R11, R15). An
instruction's register operand is one of these by its type, so no term of `Instr` can name a
register outside the set (10_state.md R12, R13). -/
inductive Reg where
  | A | B | C | D | P | X
  deriving DecidableEq, Repr

/-- The 17 opcodes, in the order of the table (30_encoding.md R64). -/
inductive Opcode where
  | loada | load | loadi | storea | store | move
  | addi | add | sub | mul | div
  | jmp | jmpr | jz | jlt
  | print | endRun
  deriving DecidableEq, Repr

/-- The seven operand formats (30_encoding.md R65). -/
inductive Format where
  | N | R | RR | RRR | I | RI | RRI
  deriving DecidableEq, Repr

/-- The 17 instructions with their operands in assembly order (30_encoding.md R64). -/
inductive Instr where
  /-- `LOADA reg, addr` (R110). -/
  | loada (reg : Reg) (addr : Word)
  /-- `LOAD reg`, the address in `A` (R111). -/
  | load (reg : Reg)
  /-- `LOADI reg, imm` (R112). -/
  | loadi (reg : Reg) (imm : Word)
  /-- `STOREA reg, addr` (R113). -/
  | storea (reg : Reg) (addr : Word)
  /-- `STORE reg`, the address in `A` (R114). -/
  | store (reg : Reg)
  /-- `MOVE regSrc, regDst`, the source first (R115). -/
  | move (src dst : Reg)
  /-- `ADDI reg, imm` (R121). -/
  | addi (reg : Reg) (imm : Word)
  /-- `ADD regA, regB, regDst` (R122). -/
  | add (regA regB dst : Reg)
  /-- `SUB regA, regB, regDst` (R123). -/
  | sub (regA regB dst : Reg)
  /-- `MUL regA, regB, regDst` (R124). -/
  | mul (regA regB dst : Reg)
  /-- `DIV regA, regB, regDst` (R125). -/
  | div (regA regB dst : Reg)
  /-- `JMP addr` (R137). -/
  | jmp (addr : Word)
  /-- `JMPR reg` (R138). -/
  | jmpr (reg : Reg)
  /-- `JZ reg, addr` (R139). -/
  | jz (reg : Reg) (addr : Word)
  /-- `JLT regA, regB, addr` (R140). -/
  | jlt (regA regB : Reg) (addr : Word)
  /-- `PRINT reg` (R145). -/
  | print (reg : Reg)
  /-- `END` (R146). -/
  | endRun
  deriving DecidableEq, Repr

/-- What the decoder reports for a word that is no instruction (30_encoding.md R66 to R68), with the
payloads of 10_state.md R19. -/
inductive DecodeFault where
  /-- The opcode byte is none of the 17 (R66). -/
  | unknownOpcode (op : BitVec 8)
  /-- A bit that the opcode's format does not use is 1 (R67). -/
  | wrongOperandCount (op : BitVec 8)
  /-- A register field the format uses holds 6 to 15 (R68). -/
  | invalidRegister (op : BitVec 8) (number : BitVec 4)
  deriving DecidableEq, Repr

end Sys2Proof
end

