-- ==== Sys2Proof/WellFormed.lean ====
section
/-! DEFINITION. Well-formedness. Every term of `Instr` is well formed by its type: a register operand
is one of six, and every 32-bit immediate is legal (30_encoding.md R63, R69). What can be ill formed
is a WORD (30_encoding.md R66 to R68) and a PROGRAM (00_scope.md R4). The check on a word is written
from the rows of opcode_table.json, apart from the decoder, so that the two can be compared. -/

namespace Sys2Proof

/-- One row of opcode_table.json: the bits that select the opcode (`mask`, `pattern`), the bits that
must be zero (`mbz`), and the low bit of each register field the row uses. -/
structure OpcodeRow where
  opcode : Opcode
  pattern : InstrWord
  mask : InstrWord
  mbz : InstrWord
  regLows : List Nat
  deriving DecidableEq, Repr

/-- The 17 rows of opcode_table.json (30_encoding.md R64, R65). -/
def opcodeTable : List OpcodeRow :=
  [⟨.loada, 0x0100000000000000, 0xFF00000000000000, 0x000FFFFF00000000, [52]⟩,
   ⟨.load, 0x0200000000000000, 0xFF00000000000000, 0x000FFFFFFFFFFFFF, [52]⟩,
   ⟨.loadi, 0x0300000000000000, 0xFF00000000000000, 0x000FFFFF00000000, [52]⟩,
   ⟨.storea, 0x0400000000000000, 0xFF00000000000000, 0x000FFFFF00000000, [52]⟩,
   ⟨.store, 0x0500000000000000, 0xFF00000000000000, 0x000FFFFFFFFFFFFF, [52]⟩,
   ⟨.move, 0x0600000000000000, 0xFF00000000000000, 0x0000FFFFFFFFFFFF, [52, 48]⟩,
   ⟨.addi, 0x0700000000000000, 0xFF00000000000000, 0x000FFFFF00000000, [52]⟩,
   ⟨.add, 0x0800000000000000, 0xFF00000000000000, 0x00000FFFFFFFFFFF, [52, 48, 44]⟩,
   ⟨.sub, 0x0900000000000000, 0xFF00000000000000, 0x00000FFFFFFFFFFF, [52, 48, 44]⟩,
   ⟨.mul, 0x0A00000000000000, 0xFF00000000000000, 0x00000FFFFFFFFFFF, [52, 48, 44]⟩,
   ⟨.div, 0x0B00000000000000, 0xFF00000000000000, 0x00000FFFFFFFFFFF, [52, 48, 44]⟩,
   ⟨.jmp, 0x0C00000000000000, 0xFF00000000000000, 0x00FFFFFF00000000, []⟩,
   ⟨.jmpr, 0x0D00000000000000, 0xFF00000000000000, 0x000FFFFFFFFFFFFF, [52]⟩,
   ⟨.jz, 0x0E00000000000000, 0xFF00000000000000, 0x000FFFFF00000000, [52]⟩,
   ⟨.jlt, 0x0F00000000000000, 0xFF00000000000000, 0x0000FFFF00000000, [52, 48]⟩,
   ⟨.print, 0x1000000000000000, 0xFF00000000000000, 0x000FFFFFFFFFFFFF, [52]⟩,
   ⟨.endRun, 0x1100000000000000, 0xFF00000000000000, 0x00FFFFFFFFFFFFFF, []⟩]

/-- The word selects the row by its opcode byte (30_encoding.md R64). -/
def OpcodeRow.selects (row : OpcodeRow) (w : InstrWord) : Bool :=
  w &&& row.mask == row.pattern

/-- No bit outside the row's fields is 1 (30_encoding.md R67). -/
def OpcodeRow.spareBitsZero (row : OpcodeRow) (w : InstrWord) : Bool :=
  w &&& row.mbz == 0

/-- Every register field the row uses holds 0 to 5 (30_encoding.md R68). -/
def OpcodeRow.registersValid (row : OpcodeRow) (w : InstrWord) : Bool :=
  row.regLows.all fun lo => (w.extractLsb' lo 4).toNat ≤ 5

/-- The word is a valid instruction of the row. -/
def OpcodeRow.accepts (row : OpcodeRow) (w : InstrWord) : Bool :=
  row.selects w && row.spareBitsZero w && row.registersValid w

/-- The word spells an instruction: some row of the table accepts it (30_encoding.md R69, R70). -/
def wordWellFormed (w : InstrWord) : Bool :=
  opcodeTable.any fun row => row.accepts w

/-- A program fits the program space: `PLEN ≤ 2147483647` (00_scope.md R4, decision D4). Its words
need not be valid instructions (70_reset_and_hazards.md R182). -/
def programWellFormed (prog : List InstrWord) : Bool :=
  decide (prog.length ≤ Config.maxPlen)

end Sys2Proof
end

