-- ==== Sys2Proof/Decode.lean ====
section
/-! DEFINITION. The decoder as a total function on 64-bit words (30_encoding.md R61 to R71), the
encoder (R61, R64, R65), and the byte image of a program (20_memory.md R48). -/

namespace Sys2Proof

/-! ### Numbers of registers and opcodes -/

/-- The 4-bit number of a register (10_state.md R10, 30_encoding.md R62). -/
def Reg.number : Reg → BitVec 4
  | .A => 0
  | .B => 1
  | .C => 2
  | .D => 3
  | .P => 4
  | .X => 5

/-- The register a number names; 6 to 15 name none (30_encoding.md R62, R68). -/
def Reg.ofNumber (n : BitVec 4) : Option Reg :=
  match n.toNat with
  | 0 => some .A
  | 1 => some .B
  | 2 => some .C
  | 3 => some .D
  | 4 => some .P
  | 5 => some .X
  | _ => none

/-- The opcode number (30_encoding.md R64). -/
def Opcode.byte : Opcode → BitVec 8
  | .loada => 0x01
  | .load => 0x02
  | .loadi => 0x03
  | .storea => 0x04
  | .store => 0x05
  | .move => 0x06
  | .addi => 0x07
  | .add => 0x08
  | .sub => 0x09
  | .mul => 0x0A
  | .div => 0x0B
  | .jmp => 0x0C
  | .jmpr => 0x0D
  | .jz => 0x0E
  | .jlt => 0x0F
  | .print => 0x10
  | .endRun => 0x11

/-- The opcode a byte names; 0x00 and 0x12 to 0xFF name none (30_encoding.md R64, R66). -/
def Opcode.ofByte (b : BitVec 8) : Option Opcode :=
  match b.toNat with
  | 0x01 => some .loada
  | 0x02 => some .load
  | 0x03 => some .loadi
  | 0x04 => some .storea
  | 0x05 => some .store
  | 0x06 => some .move
  | 0x07 => some .addi
  | 0x08 => some .add
  | 0x09 => some .sub
  | 0x0A => some .mul
  | 0x0B => some .div
  | 0x0C => some .jmp
  | 0x0D => some .jmpr
  | 0x0E => some .jz
  | 0x0F => some .jlt
  | 0x10 => some .print
  | 0x11 => some .endRun
  | _ => none

/-- The operand format of an opcode (30_encoding.md R64, R65). -/
def Opcode.format : Opcode → Format
  | .loada | .loadi | .storea | .addi | .jz => .RI
  | .load | .store | .jmpr | .print => .R
  | .move => .RR
  | .add | .sub | .mul | .div => .RRR
  | .jmp => .I
  | .jlt => .RRI
  | .endRun => .N

/-- The bits a format requires to be zero (30_encoding.md R65). -/
def Format.mbz : Format → InstrWord
  | .N => 0x00FFFFFFFFFFFFFF
  | .R => 0x000FFFFFFFFFFFFF
  | .RR => 0x0000FFFFFFFFFFFF
  | .RRR => 0x00000FFFFFFFFFFF
  | .I => 0x00FFFFFF00000000
  | .RI => 0x000FFFFF00000000
  | .RRI => 0x0000FFFF00000000

/-! ### The fields of a word (30_encoding.md R61) -/

/-- `op`, bits 63 to 56. -/
def opField (w : InstrWord) : BitVec 8 := w.extractLsb' 56 8
/-- `r1`, bits 55 to 52. -/
def r1Field (w : InstrWord) : BitVec 4 := w.extractLsb' 52 4
/-- `r2`, bits 51 to 48. -/
def r2Field (w : InstrWord) : BitVec 4 := w.extractLsb' 48 4
/-- `r3`, bits 47 to 44. -/
def r3Field (w : InstrWord) : BitVec 4 := w.extractLsb' 44 4
/-- `imm`, bits 31 to 0, signed by `BitVec.toInt` (30_encoding.md R63). -/
def immField (w : InstrWord) : Word := w.extractLsb' 0 32

/-! ### The decoder -/

/-- A register field the format uses: the register, or `InvalidRegister` (30_encoding.md R68). -/
def regOfField (op : BitVec 8) (n : BitVec 4) : Except DecodeFault Reg :=
  match Reg.ofNumber n with
  | some r => .ok r
  | none => .error (.invalidRegister op n)

/-- The instruction of a word whose opcode is known and whose unused bits are zero: the register
fields in the order `r1`, `r2`, `r3`, the first bad one reported (30_encoding.md R68, R71). -/
def decodeOperands (o : Opcode) (w : InstrWord) : Except DecodeFault Instr :=
  let r1 := regOfField (opField w) (r1Field w)
  let r2 := regOfField (opField w) (r2Field w)
  let r3 := regOfField (opField w) (r3Field w)
  match o with
  | .loada => do return .loada (← r1) (immField w)
  | .load => do return .load (← r1)
  | .loadi => do return .loadi (← r1) (immField w)
  | .storea => do return .storea (← r1) (immField w)
  | .store => do return .store (← r1)
  | .move => do return .move (← r1) (← r2)
  | .addi => do return .addi (← r1) (immField w)
  | .add => do return .add (← r1) (← r2) (← r3)
  | .sub => do return .sub (← r1) (← r2) (← r3)
  | .mul => do return .mul (← r1) (← r2) (← r3)
  | .div => do return .div (← r1) (← r2) (← r3)
  | .jmp => return .jmp (immField w)
  | .jmpr => do return .jmpr (← r1)
  | .jz => do return .jz (← r1) (immField w)
  | .jlt => do return .jlt (← r1) (← r2) (immField w)
  | .print => do return .print (← r1)
  | .endRun => return .endRun

/-- The decoder (30_encoding.md R71), its checks in the order of R69: unknown opcode, operand count,
registers. -/
def decode (w : InstrWord) : Except DecodeFault Instr :=
  match Opcode.ofByte (opField w) with
  | none => .error (.unknownOpcode (opField w))
  | some o =>
    if w &&& o.format.mbz = 0 then decodeOperands o w
    else .error (.wrongOperandCount (opField w))

/-- The host's reading of a table row's bits: one 64-bit word, bit 0 the least significant, every bit
above `nbits` zero. A number that does not fit 64 bits is no instruction word. -/
def decodeTableWord (nbits w : Nat) : Option Instr :=
  let bits := w % 2 ^ nbits
  if bits < 2 ^ 64 then
    match decode (BitVec.ofNat 64 bits) with
    | .ok i => some i
    | .error _ => none
  else none

/-! ### The encoder -/

/-- The opcode of an instruction (30_encoding.md R64). -/
def Instr.opcode : Instr → Opcode
  | .loada _ _ => .loada
  | .load _ => .load
  | .loadi _ _ => .loadi
  | .storea _ _ => .storea
  | .store _ => .store
  | .move _ _ => .move
  | .addi _ _ => .addi
  | .add _ _ _ => .add
  | .sub _ _ _ => .sub
  | .mul _ _ _ => .mul
  | .div _ _ _ => .div
  | .jmp _ => .jmp
  | .jmpr _ => .jmpr
  | .jz _ _ => .jz
  | .jlt _ _ _ => .jlt
  | .print _ => .print
  | .endRun => .endRun

/-- The five used fields at their places, `rsv` zero (30_encoding.md R61). -/
def packWord (op : BitVec 8) (r1 r2 r3 : BitVec 4) (imm : Word) : InstrWord :=
  op.setWidth 64 <<< 56 ||| r1.setWidth 64 <<< 52 ||| r2.setWidth 64 <<< 48 |||
    r3.setWidth 64 <<< 44 ||| imm.setWidth 64

/-- The word of an instruction: operands fill the fields in assembly order, every other bit is zero
(30_encoding.md R61, R64, R65, R78). -/
def encode (i : Instr) : InstrWord :=
  let op := i.opcode.byte
  match i with
  | .loada r a => packWord op r.number 0 0 a
  | .load r => packWord op r.number 0 0 0
  | .loadi r v => packWord op r.number 0 0 v
  | .storea r a => packWord op r.number 0 0 a
  | .store r => packWord op r.number 0 0 0
  | .move s d => packWord op s.number d.number 0 0
  | .addi r v => packWord op r.number 0 0 v
  | .add a b d => packWord op a.number b.number d.number 0
  | .sub a b d => packWord op a.number b.number d.number 0
  | .mul a b d => packWord op a.number b.number d.number 0
  | .div a b d => packWord op a.number b.number d.number 0
  | .jmp t => packWord op 0 0 0 t
  | .jmpr r => packWord op r.number 0 0 0
  | .jz r t => packWord op r.number 0 0 t
  | .jlt a b t => packWord op a.number b.number 0 t
  | .print r => packWord op r.number 0 0 0
  | .endRun => packWord op 0 0 0 0

/-! ### The byte image of a program (20_memory.md R48) -/

/-- The 8 bytes of a word in a program image, the most significant first. -/
def bytesOfWord (w : InstrWord) : List (BitVec 8) :=
  [w.extractLsb' 56 8, w.extractLsb' 48 8, w.extractLsb' 40 8, w.extractLsb' 32 8,
   w.extractLsb' 24 8, w.extractLsb' 16 8, w.extractLsb' 8 8, w.extractLsb' 0 8]

/-- The word of 8 bytes, the most significant first. -/
def wordOfBytes (b7 b6 b5 b4 b3 b2 b1 b0 : BitVec 8) : InstrWord :=
  b7.setWidth 64 <<< 56 ||| b6.setWidth 64 <<< 48 ||| b5.setWidth 64 <<< 40 |||
    b4.setWidth 64 <<< 32 ||| b3.setWidth 64 <<< 24 ||| b2.setWidth 64 <<< 16 |||
    b1.setWidth 64 <<< 8 ||| b0.setWidth 64

/-- The byte image of a program: its words in order, each big-endian. -/
def imageOfProgram (prog : List InstrWord) : List (BitVec 8) :=
  prog.flatMap bytesOfWord

/-- The program a byte image holds, or none if its length is no multiple of 8 (DESIGN CHOICE, log
entry 7). -/
def programOfImage : List (BitVec 8) → Option (List InstrWord)
  | [] => some []
  | b7 :: b6 :: b5 :: b4 :: b3 :: b2 :: b1 :: b0 :: rest =>
    (programOfImage rest).map fun ws => wordOfBytes b7 b6 b5 b4 b3 b2 b1 b0 :: ws
  | _ => none

end Sys2Proof
end

