-- ==== Sys2Proof/Machine/State.lean ====
section
/-! DEFINITION. The state of the core as plain data (10_state.md), the spec's fault values (R19), the
reasons a step of the model stops, and the state after reset (70_reset_and_hazards.md R181). -/

namespace Sys2Proof.Machine

/-- The six registers; `p` is the program counter (10_state.md R10, R15). -/
structure RegFile where
  a : Word
  b : Word
  c : Word
  d : Word
  p : Word
  x : Word
  deriving DecidableEq, Repr

/-- The data memory `MEM` (10_state.md R26): the cells that are not 0, as (address, value) pairs with
rising addresses. An address not listed reads as 0, the reset contents. The unit is the 32-bit cell:
the spec has no byte (20_memory.md R48; log entry 2). -/
abbrev Memory := List (Nat × Word)

/-- The engine state `STATE` (10_state.md R16). -/
inductive EngineState where
  | running | haltedNormal | haltedFault
  deriving DecidableEq, Repr

/-- The error latch: the flags `ERR` and the four context registers (10_state.md R20, R22). -/
structure Latch where
  err : BitVec 7
  fopc : BitVec 8
  faddr : Word
  fopa : Word
  fopb : Word
  deriving DecidableEq, Repr

/-- The abstract fault value (10_state.md R19). -/
inductive FaultValue where
  /-- A data address, an instruction index at fetch or a jump target out of bounds. -/
  | outOfBounds (address : Word)
  /-- An exact result outside the 32-bit signed range. -/
  | overflow (op : BitVec 8) (a b : Word)
  /-- `DIV` by zero, with the dividend. -/
  | divideByZero (a : Word)
  /-- The opcode byte is none of the 17. -/
  | unknownOpcode (op : BitVec 8)
  /-- A bit the opcode's format does not use is 1. -/
  | wrongOperandCount (op : BitVec 8)
  /-- A used register field holds 6 to 15. -/
  | invalidRegister (op : BitVec 8) (number : BitVec 4)
  /-- Raised by the assembler only (60_exceptions.md R158). -/
  | invalidAddress
  deriving DecidableEq, Repr

/-- The whole state. `prog` is the loaded program `PROG`, its length `PLEN`: the spec calls them
parameters of a run (10_state.md R27); they stand here so that a state can be run (log entry 1).
`outPort` is `out_valid` with `out_data` (10_state.md R32): none is `out_valid` = 0 (log entry 4). -/
structure State where
  regs : RegFile
  mem : Memory
  engine : EngineState
  latch : Latch
  out : List Word
  outPort : Option Word
  prog : List InstrWord
  deriving DecidableEq, Repr

/-- Why the model's `step` stops without a next state. The faults of the SPEC are not here: a step
that raises one has a next state, halted with the latch written (60_exceptions.md R160). -/
inductive Fault where
  /-- Raised by `step` alone, when `STATE` is `HaltedNormal`: no step exists (40_step.md R90). Safe:
  the spec says the same, and no claim can be proved through it. -/
  | haltedNormal
  /-- Raised by `step` alone, when `STATE` is `HaltedFault`: no step exists (40_step.md R90). Safe,
  for the same reason. -/
  | haltedFault
  deriving DecidableEq, Repr

/-- Why `exec` has no meaning for an instruction. -/
inductive Refusal where
  /-- The instruction has no meaning yet; raised by `exec` alone. No arm of this model raises it.
  Safe: nothing can be proved of a refused instruction's effect. -/
  | notModelled (mnemonic : String)
  deriving DecidableEq, Repr

/-- Every register at 0 (10_state.md R14). -/
def RegFile.reset : RegFile := ⟨0, 0, 0, 0, 0, 0⟩

/-- No flag and no context (10_state.md R23). -/
def Latch.clear : Latch := ⟨0, 0, 0, 0, 0⟩

/-- The state after reset (70_reset_and_hazards.md R181), with no program placed: the spec gives
`PROG` and `PLEN` no reset value, the host supplies them (R182; log entry 1). -/
def State.reset : State :=
  { regs := RegFile.reset
    mem := []
    engine := .running
    latch := Latch.clear
    out := []
    outPort := none
    prog := [] }

end Sys2Proof.Machine
end

