-- ==== Sys2Proof/Machine/Flags.lean ====
section
/-! DEFINITION. The only flags of the core: the bits of `ERR` and the context recorded with them
(10_state.md R20, R22; 60_exceptions.md R151). There are no condition codes (10_state.md R28). Also
the range test of the overflow law (42_arithmetic.md R120) and the code of `STATE` (10_state.md
R16). -/

namespace Sys2Proof.Machine

/-- The exact result is representable in 32 signed bits (00_scope.md section 4, 42_arithmetic.md
R120). -/
abbrev InRange (r : Int) : Prop := Config.intMin ≤ r ∧ r ≤ Config.intMax

/-- The 2-bit value of `STATE` (10_state.md R16). -/
def EngineState.code : EngineState → BitVec 2
  | .running => 0
  | .haltedNormal => 1
  | .haltedFault => 2

/-- The `ERR` bit of a fault kind (10_state.md R20). -/
def FaultValue.errBit : FaultValue → Nat
  | .outOfBounds _ => 0
  | .overflow _ _ _ => 1
  | .divideByZero _ => 2
  | .unknownOpcode _ => 3
  | .wrongOperandCount _ => 4
  | .invalidRegister _ _ => 5
  | .invalidAddress => 6

/-- The cause code: the bit number plus one (10_state.md R20, 60_exceptions.md R151). -/
def FaultValue.cause (f : FaultValue) : Nat := f.errBit + 1

/-- The value of `ERR` with one bit set; bit 6 is hard-wired to 0 (10_state.md R20). -/
def errWithBit (n : Nat) : BitVec 7 := (1#7 <<< n) &&& 0x3F#7

/-- What the latch records for a fault (60_exceptions.md R151). `fopc` is used for `OutOfBounds`
alone: the opcode of the instruction, or 0 when the fetch check raised it. A context register the
table does not name is 0 (10_state.md R22). -/
def latchOf (fopc : BitVec 8) (f : FaultValue) : Latch :=
  let err := errWithBit f.errBit
  match f with
  | .outOfBounds a => { err, fopc, faddr := a, fopa := 0, fopb := 0 }
  | .overflow op a b => { err, fopc := op, faddr := 0, fopa := a, fopb := b }
  | .divideByZero a => { err, fopc := Opcode.div.byte, faddr := 0, fopa := a, fopb := 0 }
  | .unknownOpcode op => { err, fopc := op, faddr := 0, fopa := 0, fopb := 0 }
  | .wrongOperandCount op => { err, fopc := op, faddr := 0, fopa := 0, fopb := 0 }
  | .invalidRegister op n => { err, fopc := op, faddr := n.setWidth 32, fopa := 0, fopb := 0 }
  | .invalidAddress => { err, fopc := 0, faddr := 0, fopa := 0, fopb := 0 }

/-- The fault value a latch shows, the other view of the same thing (10_state.md section 4): none
when no flag is set. -/
def Latch.faultValue (l : Latch) : Option FaultValue :=
  if l.err = errWithBit 0 then some (.outOfBounds l.faddr)
  else if l.err = errWithBit 1 then some (.overflow l.fopc l.fopa l.fopb)
  else if l.err = errWithBit 2 then some (.divideByZero l.fopa)
  else if l.err = errWithBit 3 then some (.unknownOpcode l.fopc)
  else if l.err = errWithBit 4 then some (.wrongOperandCount l.fopc)
  else if l.err = errWithBit 5 then some (.invalidRegister l.fopc (l.faddr.setWidth 4))
  else none

/-- A decode fault as a fault value (10_state.md R19, 40_step.md R94). -/
def faultOfDecode : DecodeFault → FaultValue
  | .unknownOpcode op => .unknownOpcode op
  | .wrongOperandCount op => .wrongOperandCount op
  | .invalidRegister op n => .invalidRegister op n

end Sys2Proof.Machine
end

