-- ==== Sys2Proof/Machine/Ops.lean ====
section
/-! DEFINITION. The named operations of the machine: register file, memory controller, the effect of
an instruction, the program counter update, fault entry (the one exception operation) and commit. -/

namespace Sys2Proof.Machine

/-! ### Register file (10_state.md R12) -/

/-- `get(id)` (10_state.md R12). -/
def RegFile.get (rf : RegFile) : Reg → Word
  | .A => rf.a
  | .B => rf.b
  | .C => rf.c
  | .D => rf.d
  | .P => rf.p
  | .X => rf.x

/-- `set(id, value)`: replaces that register and no other (10_state.md R12). -/
def RegFile.set (rf : RegFile) (r : Reg) (v : Word) : RegFile :=
  match r with
  | .A => { rf with a := v }
  | .B => { rf with b := v }
  | .C => { rf with c := v }
  | .D => { rf with d := v }
  | .P => { rf with p := v }
  | .X => { rf with x := v }

/-- The value of a register in a state. -/
def State.reg (s : State) (r : Reg) : Word := s.regs.get r

/-! ### Data memory (20_memory.md R40 to R44) -/

/-- The value of the cell at an address; 0 where nothing is listed (10_state.md R26). -/
def Memory.read : Memory → Nat → Word
  | [], _ => 0
  | (b, u) :: m, a => if a = b then u else Memory.read m a

/-- The memory with one cell replaced, in canonical form: writing 0, which an unlisted address reads
as, removes the entry. -/
def Memory.write : Memory → Nat → Word → Memory
  | [], a, v => if v = 0 then [] else [(a, v)]
  | (b, u) :: m, a, v =>
    if a < b then (if v = 0 then (b, u) :: m else (a, v) :: (b, u) :: m)
    else if a = b then (if v = 0 then m else (a, v) :: m)
    else (b, u) :: Memory.write m a v

/-- The canonical form from address `lo` on: rising addresses below 2048, no cell 0. -/
def Memory.wfFrom (lo : Nat) : Memory → Bool
  | [] => true
  | (a, v) :: m =>
    decide (lo ≤ a) && decide (a < Config.memSize) && !decide (v = 0) && Memory.wfFrom (a + 1) m

/-- The memory is in canonical form. -/
def Memory.wf (m : Memory) : Bool := Memory.wfFrom 0 m

/-- The value of one data cell in a state: the model's read of one cell. -/
def State.cell (s : State) (a : Nat) : Word := Memory.read s.mem a

/-- A valid data address, compared as a signed value (20_memory.md R41, R43). -/
abbrev InData (a : Word) : Prop := 0 ≤ a.toInt ∧ a.toInt < Config.memSize

/-- `MemRead(addr, 1)` (20_memory.md R41). -/
def memRead (m : Memory) (a : Word) : Except FaultValue Word :=
  if InData a then .ok (Memory.read m a.toNat) else .error (.outOfBounds a)

/-- `MemWrite(addr, 1, v)` (20_memory.md R42). -/
def memWrite (m : Memory) (a v : Word) : Except FaultValue Memory :=
  if InData a then .ok (Memory.write m a.toNat v) else .error (.outOfBounds a)

/-! ### Program space (20_memory.md R46) -/

/-- `PLEN` (00_scope.md R4): the number of words of the loaded program. -/
def State.plen (s : State) : Nat := s.prog.length

/-- A valid instruction index (40_step.md R92, R99). -/
abbrev InProgram (s : State) (t : Word) : Prop := 0 ≤ t.toInt ∧ t.toInt < s.plen

/-! ### The effect of an instruction (40_step.md R95) -/

/-- What an execute function yields: at most one of each (40_step.md R95). -/
structure Effect where
  regWrite : Option (Reg × Word) := none
  cellWrite : Option (Word × Word) := none
  emit : Option Word := none
  jump : Option Word := none
  halt : Bool := false
  deriving DecidableEq, Repr

/-- The effect of writing one register. -/
def Effect.ofReg (r : Reg) (v : Word) : Effect := { regWrite := some (r, v) }

/-- The effect of storing one cell, or the fault of its address (20_memory.md R42). -/
def Effect.ofStore (m : Memory) (a v : Word) : Except FaultValue Effect :=
  (memWrite m a v).map fun _ => { cellWrite := some (a, v) }

/-- The effect of a jump taken to `t` (40_step.md R99). -/
def Effect.ofJump (t : Word) : Effect := { jump := some t }

/-- The register file after the effect's register write, before the program counter update. -/
def Effect.applyRegs (e : Effect) (rf : RegFile) : RegFile :=
  match e.regWrite with
  | some (r, v) => rf.set r v
  | none => rf

/-- The data memory after the effect's memory write. -/
def Effect.applyMem (e : Effect) (m : Memory) : Memory :=
  match e.cellWrite with
  | some (a, v) => Memory.write m a.toNat v
  | none => m

/-! ### Program counter update (40_step.md R96, R97, R99) -/

/-- The program counter incrementer: never wraps (40_step.md R97). -/
def incrementPc (op : BitVec 8) (q : Word) : Except FaultValue Word :=
  if q.toInt = Config.intMax then .error (.overflow op q 1) else .ok (q + 1)

/-- The next value of `P`, or the fault of the update: a taken jump's target is checked (R99), else
the value `P` has after the register write is incremented (R96, R97). -/
def nextPc (op : BitVec 8) (e : Effect) (s : State) : Except FaultValue Word :=
  match e.jump with
  | some t => if InProgram s t then .ok t else .error (.outOfBounds t)
  | none => incrementPc op ((e.applyRegs s.regs).get .P)

/-! ### Fault entry and commit (60_exceptions.md R160, 40_step.md R98) -/

/-- TAKING A FAULT (60_exceptions.md R160): the latch is written and the engine halts; no register,
not `P`, no cell and not `OUT` changes. There is no return from it (R162). -/
def raise (fopc : BitVec 8) (f : FaultValue) (s : State) : State :=
  { s with engine := .haltedFault, latch := latchOf fopc f, outPort := none }

/-- The commit of a whole effect with the next value of `P` (40_step.md R98). -/
def commit (e : Effect) (next : Word) (s : State) : State :=
  { s with
    regs := (e.applyRegs s.regs).set .P next
    mem := e.applyMem s.mem
    out := s.out ++ e.emit.toList
    outPort := e.emit
    engine := if e.halt then .haltedNormal else s.engine }

/-- Phases 5 and 6 of a step after the execute phase's answer (40_step.md R91, R98): all or
nothing. -/
def finish (op : BitVec 8) (answer : Except FaultValue Effect) (s : State) : State :=
  match answer with
  | .error f => raise op f s
  | .ok e =>
    match nextPc op e s with
    | .error f => raise op f s
    | .ok next => commit e next s

/-- A meaning: the execute phase's answer, carried through the program counter update and the commit.
A fault of the spec is a next state (60_exceptions.md R160). -/
def complete (o : Opcode) (answer : Except FaultValue Effect) (s : State) :
    Host.Outcome State Fault Refusal :=
  .next (finish o.byte answer s)

/-! ### Reset and loading (70_reset_and_hazards.md R180 to R182) -/

/-- Reset applied in any state: every field at its reset value but the program, which reset does not
change (70_reset_and_hazards.md R180, R181). -/
def State.applyReset (s : State) : State := { State.reset with prog := s.prog }

end Sys2Proof.Machine
end

