-- ==== Sys2Proof/Machine/Operands.lean ====
section
/-! DEFINITION. The operand forms (41_load_store_move.md, 42_arithmetic.md, 43_jumps.md) and the ALU
(40_step.md R103). Every operand is read from the state at the start of the step (40_step.md R95,
R102), so an operand `P` reads the instruction's own index (R100). -/

namespace Sys2Proof.Machine

/-- The address of `LOAD` and `STORE`: the value of register `A` (41_load_store_move.md R111, R114). -/
def indirectAddress (s : State) : Word := s.reg .A

/-- The data cell at an address as an operand (20_memory.md R41). -/
def cellOperand (s : State) (a : Word) : Except FaultValue Word := memRead s.mem a

/-- A jump taken when the condition holds (43_jumps.md R139, R140); not taken, its target is not
looked at (R136). -/
def jumpWhen (taken : Bool) (t : Word) : Effect := if taken then Effect.ofJump t else {}

/-- The overflow law: the exact result if representable, else `Overflow(op, a, b)`
(42_arithmetic.md R120). -/
def narrow (op : BitVec 8) (a b : Word) (exact : Int) : Except FaultValue Word :=
  if InRange exact then .ok (BitVec.ofInt 32 exact) else .error (.overflow op a b)

/-- Exact sum (42_arithmetic.md R121, R122). -/
def aluAdd (op : BitVec 8) (a b : Word) : Except FaultValue Word :=
  narrow op a b (a.toInt + b.toInt)

/-- Exact difference (42_arithmetic.md R123). -/
def aluSub (op : BitVec 8) (a b : Word) : Except FaultValue Word :=
  narrow op a b (a.toInt - b.toInt)

/-- Exact product (42_arithmetic.md R124). -/
def aluMul (op : BitVec 8) (a b : Word) : Except FaultValue Word :=
  narrow op a b (a.toInt * b.toInt)

/-- Quotient truncated toward zero; a zero divisor is `DivideByZero`, and the one quotient that does
not fit, `INT_MIN ÷ −1`, is an overflow (42_arithmetic.md R125 to R127). -/
def aluDiv (op : BitVec 8) (a b : Word) : Except FaultValue Word :=
  if b.toInt = 0 then .error (.divideByZero a) else narrow op a b (a.toInt.tdiv b.toInt)

/-- The comparison `a = 0` (40_step.md R103, 43_jumps.md R139). -/
def aluIsZero (a : Word) : Bool := a.toInt == 0

/-- The signed comparison `a < b` (42_arithmetic.md R128, 43_jumps.md R140). -/
def aluLess (a b : Word) : Bool := decide (a.toInt < b.toInt)

end Sys2Proof.Machine
end

