-- ==== Sys2Proof/Machine/Arithmetic.lean ====
section
/-! DEFINITION. The meanings of ADDI, ADD, SUB, MUL, DIV (42_arithmetic.md). -/

namespace Sys2Proof.Machine

/-- `ADDI reg, imm`: the register is source and destination (42_arithmetic.md R121). -/
def execAddi (reg : Reg) (imm : Word) (s : State) : Host.Outcome State Fault Refusal :=
  complete .addi ((aluAdd Opcode.addi.byte (s.reg reg) imm).map (Effect.ofReg reg)) s

/-- `ADD regA, regB, regDst` (42_arithmetic.md R122). -/
def execAdd (regA regB dst : Reg) (s : State) : Host.Outcome State Fault Refusal :=
  complete .add ((aluAdd Opcode.add.byte (s.reg regA) (s.reg regB)).map (Effect.ofReg dst)) s

/-- `SUB regA, regB, regDst` (42_arithmetic.md R123). -/
def execSub (regA regB dst : Reg) (s : State) : Host.Outcome State Fault Refusal :=
  complete .sub ((aluSub Opcode.sub.byte (s.reg regA) (s.reg regB)).map (Effect.ofReg dst)) s

/-- `MUL regA, regB, regDst` (42_arithmetic.md R124). -/
def execMul (regA regB dst : Reg) (s : State) : Host.Outcome State Fault Refusal :=
  complete .mul ((aluMul Opcode.mul.byte (s.reg regA) (s.reg regB)).map (Effect.ofReg dst)) s

/-- `DIV regA, regB, regDst` (42_arithmetic.md R125). -/
def execDiv (regA regB dst : Reg) (s : State) : Host.Outcome State Fault Refusal :=
  complete .div ((aluDiv Opcode.div.byte (s.reg regA) (s.reg regB)).map (Effect.ofReg dst)) s

end Sys2Proof.Machine
end

