-- ==== Sys2Proof/Machine/Environment.lean ====
section
/-! DEFINITION. The meanings of PRINT and END (44_print_end.md). -/

namespace Sys2Proof.Machine

/-- `PRINT reg`: `emit(x[r1])` (44_print_end.md R145). -/
def execPrint (reg : Reg) (s : State) : Host.Outcome State Fault Refusal :=
  complete .print (.ok { emit := some (s.reg reg) }) s

/-- `END`: the normal halt; `P` is advanced (44_print_end.md R146, 90_conflicts.md C2). -/
def execEnd (s : State) : Host.Outcome State Fault Refusal :=
  complete .endRun (.ok { halt := true }) s

end Sys2Proof.Machine
end

