-- ==== Sys2Proof/Machine/Jumps.lean ====
section
/-! DEFINITION. The meanings of JMP, JMPR, JZ, JLT (43_jumps.md). Targets are absolute instruction
indices (R135), checked when the jump is taken (R136). -/

namespace Sys2Proof.Machine

/-- `JMP addr`: taken to `imm` (43_jumps.md R137). -/
def execJmp (addr : Word) (s : State) : Host.Outcome State Fault Refusal :=
  complete .jmp (.ok (Effect.ofJump addr)) s

/-- `JMPR reg`: taken to the register's value (43_jumps.md R138). -/
def execJmpr (reg : Reg) (s : State) : Host.Outcome State Fault Refusal :=
  complete .jmpr (.ok (Effect.ofJump (s.reg reg))) s

/-- `JZ reg, addr`: taken to `imm` if the register is 0 (43_jumps.md R139). -/
def execJz (reg : Reg) (addr : Word) (s : State) : Host.Outcome State Fault Refusal :=
  complete .jz (.ok (jumpWhen (aluIsZero (s.reg reg)) addr)) s

/-- `JLT regA, regB, addr`: taken to `imm` if regA is less than regB, signed (43_jumps.md R140). -/
def execJlt (regA regB : Reg) (addr : Word) (s : State) : Host.Outcome State Fault Refusal :=
  complete .jlt (.ok (jumpWhen (aluLess (s.reg regA) (s.reg regB)) addr)) s

end Sys2Proof.Machine
end

