-- ==== Sys2Proof/Machine/LoadStoreMove.lean ====
section
/-! DEFINITION. The meanings of LOADA, LOAD, LOADI, STOREA, STORE, MOVE (41_load_store_move.md). -/

namespace Sys2Proof.Machine

/-- `LOADA reg, addr`: `x[r1] <- MemRead(imm, 1)` (41_load_store_move.md R110). -/
def execLoada (reg : Reg) (addr : Word) (s : State) : Host.Outcome State Fault Refusal :=
  complete .loada ((cellOperand s addr).map (Effect.ofReg reg)) s

/-- `LOAD reg`: `x[r1] <- MemRead(x[0], 1)` (41_load_store_move.md R111). -/
def execLoad (reg : Reg) (s : State) : Host.Outcome State Fault Refusal :=
  complete .load ((cellOperand s (indirectAddress s)).map (Effect.ofReg reg)) s

/-- `LOADI reg, imm`: `x[r1] <- imm` (41_load_store_move.md R112). -/
def execLoadi (reg : Reg) (imm : Word) (s : State) : Host.Outcome State Fault Refusal :=
  complete .loadi (.ok (Effect.ofReg reg imm)) s

/-- `STOREA reg, addr`: `MemWrite(imm, 1, x[r1])` (41_load_store_move.md R113). -/
def execStorea (reg : Reg) (addr : Word) (s : State) : Host.Outcome State Fault Refusal :=
  complete .storea (Effect.ofStore s.mem addr (s.reg reg)) s

/-- `STORE reg`: `MemWrite(x[0], 1, x[r1])` (41_load_store_move.md R114). -/
def execStore (reg : Reg) (s : State) : Host.Outcome State Fault Refusal :=
  complete .store (Effect.ofStore s.mem (indirectAddress s) (s.reg reg)) s

/-- `MOVE regSrc, regDst`: `x[r2] <- x[r1]`, the source first (41_load_store_move.md R115). -/
def execMove (src dst : Reg) (s : State) : Host.Outcome State Fault Refusal :=
  complete .move (.ok (Effect.ofReg dst (s.reg src))) s

end Sys2Proof.Machine
end

