-- ==== Sys2Proof/Machine/Dispatch.lean ====
section
/-! DEFINITION. The dispatch multiplexer: one execute function per opcode, no default arm (40_step.md
R95). `exec` is called by `step` in a running state only (40_step.md R90; log entry 8). -/

namespace Sys2Proof.Machine

def exec (i : Instr) (s : State) : Host.Outcome State Fault Refusal :=
  match i with
  | .loada reg addr => Sys2Proof.Machine.execLoada reg addr s
  | .load reg => Sys2Proof.Machine.execLoad reg s
  | .loadi reg imm => Sys2Proof.Machine.execLoadi reg imm s
  | .storea reg addr => Sys2Proof.Machine.execStorea reg addr s
  | .store reg => Sys2Proof.Machine.execStore reg s
  | .move src dst => Sys2Proof.Machine.execMove src dst s
  | .addi reg imm => Sys2Proof.Machine.execAddi reg imm s
  | .add regA regB dst => Sys2Proof.Machine.execAdd regA regB dst s
  | .sub regA regB dst => Sys2Proof.Machine.execSub regA regB dst s
  | .mul regA regB dst => Sys2Proof.Machine.execMul regA regB dst s
  | .div regA regB dst => Sys2Proof.Machine.execDiv regA regB dst s
  | .jmp addr => Sys2Proof.Machine.execJmp addr s
  | .jmpr reg => Sys2Proof.Machine.execJmpr reg s
  | .jz reg addr => Sys2Proof.Machine.execJz reg addr s
  | .jlt regA regB addr => Sys2Proof.Machine.execJlt regA regB addr s
  | .print reg => Sys2Proof.Machine.execPrint reg s
  | .endRun => Sys2Proof.Machine.execEnd s

end Sys2Proof.Machine
end

