-- ==== Sys2Proof/Machine/Fetch.lean ====
section
/-! DEFINITION. The phases of a step before the execute phase: whether a step exists (40_step.md
R90), the fetch with its bounds check (R92, R93), the decode (R94); and how one word is placed where
the next step fetches. -/

namespace Sys2Proof.Machine

/-- The instruction word at `P`, or `OutOfBounds(P)` (40_step.md R92, R93): a negative index or one
at or past `PLEN` has no word. -/
def fetchWord (s : State) : Except FaultValue InstrWord :=
  let p := s.reg .P
  if p.toInt < 0 then .error (.outOfBounds p)
  else
    match s.prog[p.toInt.toNat]? with
    | some w => .ok w
    | none => .error (.outOfBounds p)

/-- The instruction a word spells, or the decode fault (40_step.md R94). -/
def decodeWord (w : InstrWord) : Except FaultValue Instr :=
  (decode w).mapError faultOfDecode

/-- The instruction the next step executes, or the fault of fetching or decoding it. -/
def fetchInstr (s : State) : Except FaultValue Instr := fetchWord s >>= decodeWord

/-- What comes before the execute phase: the instruction to execute, or the step's outcome where it
ends earlier. No step exists in a halted state (40_step.md R90; log entry 3); a fetch or decode fault
is taken, `FOPC` being 0 for the fetch check (60_exceptions.md R151). -/
def beforeExecute (s : State) : Except (Host.Outcome State Fault Refusal) Instr :=
  match s.engine with
  | .haltedNormal => .error (.fault .haltedNormal)
  | .haltedFault => .error (.fault .haltedFault)
  | .running =>
    match fetchInstr s with
    | .error f => .error (.next (raise 0 f s))
    | .ok i => .ok i

/-- A program with the word `w` at index `n`: replaced, or placed after as many zero words as it takes
to reach `n`. -/
def placeWord (prog : List InstrWord) (n : Nat) (w : InstrWord) : List InstrWord :=
  if n < prog.length then prog.set n w
  else prog ++ List.replicate (n - prog.length) 0 ++ [w]

/-- The state with the word placed at the index `P` holds, a load of one word that the spec does not
have (DESIGN CHOICE, log entry 10). A negative `P` names no place: the program is then as it was. At
`P` = `INT_MAX` the program gets 2147483648 words, one more than `PLEN` may be (00_scope.md R4), so
that the next step fetches at `INT_MAX`: `State.loadProgram` refuses such a program, and `MachineInv`
excludes the state. -/
def placeAtPc (s : State) (w : InstrWord) : State :=
  if (s.reg .P).toInt < 0 then s
  else { s with prog := placeWord s.prog (s.reg .P).toInt.toNat w }

end Sys2Proof.Machine
end

