-- ==== Sys2Proof/Machine/Step.lean ====
section
/-! DEFINITION. One step of the core: fetch, decode, execute (40_step.md R91), and the host's way to
place one instruction where the next step fetches it. -/

namespace Sys2Proof.Machine

/-- One step (40_step.md R91; pseudocode after R98). -/
def step (s : State) : Host.Outcome State Fault Refusal :=
  match beforeExecute s with
  | .error o => o
  | .ok i => exec i s

/-- The state with the instruction word of a table row's bits (bit 0 the least significant, those at
or above `nbits` zero) placed where `step` fetches. The program is loaded from outside the machine
(70_reset_and_hazards.md R182; log entry 1); `PLEN` grows where it must. -/
def State.withFetchWord (s : State) (nbits w : Nat) : State :=
  placeAtPc s (BitVec.ofNat 64 (w % 2 ^ nbits))

end Sys2Proof.Machine
end

