-- ==== Sys2Proof/Machine/Assembler.lean ====
section
/-! DEFINITION. The assembler: from the text of a program to its words (30_encoding.md R75 to R79).
It runs before a run and is no part of the core's step. -/

namespace Sys2Proof

/-- The four decode errors of the source, reported on text (30_encoding.md R78). -/
inductive AsmError where
  /-- The first token is no mnemonic. -/
  | unknownOpcode
  /-- The number of operand tokens is not the opcode's. -/
  | wrongOperandCount
  /-- A token in a register position is none of the six names (R76). -/
  | invalidRegister
  /-- A token in an address or immediate position is no decimal integer in range (R77). -/
  | invalidAddress
  deriving DecidableEq, Repr

/-- A token of a line. -/
abbrev Token := List Char

/-- The mnemonic of an opcode (30_encoding.md R64). -/
def Opcode.mnemonic : Opcode → String
  | .loada => "LOADA"
  | .load => "LOAD"
  | .loadi => "LOADI"
  | .storea => "STOREA"
  | .store => "STORE"
  | .move => "MOVE"
  | .addi => "ADDI"
  | .add => "ADD"
  | .sub => "SUB"
  | .mul => "MUL"
  | .div => "DIV"
  | .jmp => "JMP"
  | .jmpr => "JMPR"
  | .jz => "JZ"
  | .jlt => "JLT"
  | .print => "PRINT"
  | .endRun => "END"

/-- All opcodes, in the table's order (30_encoding.md R64). -/
def allOpcodes : List Opcode :=
  [.loada, .load, .loadi, .storea, .store, .move, .addi, .add, .sub, .mul, .div, .jmp, .jmpr, .jz,
   .jlt, .print, .endRun]

/-- The opcode whose mnemonic a token is, upper case only (30_encoding.md R75, R76). -/
def opcodeOfToken (t : Token) : Option Opcode :=
  allOpcodes.find? fun o => o.mnemonic.toList == t

/-- The number of the register a token names (30_encoding.md R76). -/
def registerOfToken (t : Token) : Except AsmError (BitVec 4) :=
  match t with
  | ['A'] => .ok Reg.A.number
  | ['B'] => .ok Reg.B.number
  | ['C'] => .ok Reg.C.number
  | ['D'] => .ok Reg.D.number
  | ['P'] => .ok Reg.P.number
  | ['X'] => .ok Reg.X.number
  | _ => .error .invalidRegister

/-- The numbers of the registers some tokens name, the first bad one reported. -/
def registersOfTokens : List Token → Except AsmError (List (BitVec 4))
  | [] => .ok []
  | t :: ts => do return (← registerOfToken t) :: (← registersOfTokens ts)

/-- The value of one or more decimal digits (30_encoding.md R77). -/
def naturalOfToken (t : Token) : Option Nat :=
  if !t.isEmpty && t.all (fun c => decide ('0' ≤ c) && decide (c ≤ '9')) then
    some (t.foldl (fun n c => 10 * n + (c.toNat - 48)) 0)
  else none

/-- The value of an optional `-` and digits (30_encoding.md R77). -/
def integerOfToken (t : Token) : Option Int :=
  match t with
  | '-' :: digits => (naturalOfToken digits).map fun n : Nat => -(n : Int)
  | digits => (naturalOfToken digits).map fun n : Nat => (n : Int)

/-- An address or immediate operand: an integer in `INT_MIN .. INT_MAX` (30_encoding.md R77). -/
def wordOfToken (t : Token) : Except AsmError Word :=
  match integerOfToken t with
  | none => .error .invalidAddress
  | some v =>
    if Config.intMin ≤ v ∧ v ≤ Config.intMax then .ok (BitVec.ofInt 32 v) else .error .invalidAddress

/-- How many register operands a format has (30_encoding.md R65). -/
def Format.registerCount : Format → Nat
  | .N | .I => 0
  | .R | .RI => 1
  | .RR | .RRI => 2
  | .RRR => 3

/-- Whether a format has an address or immediate operand (30_encoding.md R65). -/
def Format.hasImmediate : Format → Bool
  | .I | .RI | .RRI => true
  | .N | .R | .RR | .RRR => false

/-- The number of operands of a format (30_encoding.md R65). -/
def Format.operandCount (f : Format) : Nat := f.registerCount + (if f.hasImmediate then 1 else 0)

/-- The word of a line's tokens: the opcode, then the count, then the registers, then the integer
(30_encoding.md R78). A line without a token has no mnemonic (log entry 6). -/
def assembleTokens : List Token → Except AsmError InstrWord
  | [] => .error .unknownOpcode
  | mnemonic :: operands =>
    match opcodeOfToken mnemonic with
    | none => .error .unknownOpcode
    | some o =>
      if operands.length = o.format.operandCount then do
        let regs ← registersOfTokens (operands.take o.format.registerCount)
        let imm ←
          if o.format.hasImmediate then
            wordOfToken (operands.getD o.format.registerCount [])
          else .ok 0
        return packWord o.byte (regs.getD 0 0) (regs.getD 1 0) (regs.getD 2 0) imm
      else .error .wrongOperandCount

/-- A finished token, if it has a character. -/
def flushToken (reversed : List Char) : List Token :=
  if reversed.isEmpty then [] else [reversed.reverse]

/-- The tokens of a text, cut at white space, with the characters of the current token in reverse
(30_encoding.md R75; which characters are white space: log entry 6). -/
def tokensFrom (reversed : List Char) : List Char → List Token
  | [] => flushToken reversed
  | c :: cs =>
    if c.isWhitespace then flushToken reversed ++ tokensFrom [] cs
    else tokensFrom (c :: reversed) cs

/-- The word of one line (30_encoding.md R78). -/
def assembleLine (line : String) : Except AsmError InstrWord :=
  assembleTokens (tokensFrom [] line.toList)

/-- The words of a program, one a line, its position its instruction index; the whole program is
refused if a line has an error (30_encoding.md R75, R78), with the error of the first such line (log
entry 6). -/
def assemble : List String → Except AsmError (List InstrWord)
  | [] => .ok []
  | line :: lines => do return (← assembleLine line) :: (← assemble lines)

end Sys2Proof
end

