-- ==== Sys2Proof/Machine/HostInterface.lean ====
section
/-! DEFINITION. What the host does and sees outside a step: loading a program, reset, the ports and
the observation of a run (00_scope.md R7; 10_state.md R32, R33; 70_reset_and_hazards.md R180 to
R182). -/

namespace Sys2Proof.Machine

/-- Placing a program and driving `plen` with the number of its words (70_reset_and_hazards.md R182);
none for a program longer than the core's `PLEN` may be (00_scope.md R4; log entry 5). -/
def State.loadProgram (s : State) (prog : List InstrWord) : Option State :=
  if programWellFormed prog then some { s with prog := prog } else none

/-- Boot: place the program, then reset (70_reset_and_hazards.md R182). -/
def launch (s : State) (prog : List InstrWord) : Option State :=
  (s.loadProgram prog).map State.applyReset

/-- One step with the input `rst`: while it is asserted the core takes no step and is in its reset
state (70_reset_and_hazards.md R180). -/
def clockStep (rst : Bool) (s : State) : Host.Outcome State Fault Refusal :=
  if rst then .next s.applyReset else step s

/-- The output ports (10_state.md R32). `outData` is present while `outValid` is 1; the spec gives it
no value otherwise (log entry 4). -/
structure Ports where
  imemAddr : Word
  outValid : BitVec 1
  outData : Option Word
  state : BitVec 2
  err : BitVec 7
  fopc : BitVec 8
  faddr : Word
  fopa : Word
  fopb : Word
  deriving DecidableEq, Repr

/-- The ports as views of the state (10_state.md R32): the output port shows the emission of the step
just taken. The spec has `imem_addr` show `P` during fetch and does not say what it shows otherwise:
here it shows `P` in every state, a halted one included (DESIGN CHOICE, log entry 11). -/
def State.ports (s : State) : Ports :=
  { imemAddr := s.reg .P
    outValid := if s.outPort.isSome then 1 else 0
    outData := s.outPort
    state := s.engine.code
    err := s.latch.err
    fopc := s.latch.fopc
    faddr := s.latch.faddr
    fopa := s.latch.fopa
    fopb := s.latch.fopb }

/-- What the host may observe of a run (10_state.md R33). -/
structure Observation where
  out : List Word
  engine : EngineState
  fault : Option FaultValue
  deriving DecidableEq, Repr

/-- The triple (`OUT`, `STATE`, latched fault) (10_state.md R33). -/
def State.observation (s : State) : Observation :=
  { out := s.out, engine := s.engine, fault := s.latch.faultValue }

end Sys2Proof.Machine
end

