-- ==== Sys2Proof/Safety.lean ====
section
/-! DEFINITION. The terms claims are stated in: what a step leaves unchanged, what a fault leaves
behind, the invariant of the machine, and what the spec's tables say an instruction reads and
writes, written apart from the meanings. -/

namespace Sys2Proof.Machine

/-! ### Runs -/

/-- A run that has not faulted (60_exceptions.md R160). -/
abbrev Safe (s : State) : Prop := s.engine ≠ .haltedFault

/-- `t` is reached from `s` by steps of the core (40_step.md R106). -/
inductive Reaches (s : State) : State → Prop where
  /-- No step. -/
  | here : Reaches s s
  /-- One more step. -/
  | next {t u : State} : Reaches s t → step t = .next u → Reaches s u

/-! ### Frames: relations between the state before and after -/

/-- Every data cell reads as before. -/
def SameMemory (s t : State) : Prop := ∀ a, t.cell a = s.cell a

/-- Every register but `P` and those listed reads as before. -/
def SameRegistersBut (written : List Reg) (s t : State) : Prop :=
  ∀ q, q ≠ .P → q ∉ written → t.reg q = s.reg q

/-- The latch and the program are as before (10_state.md R21, R27). -/
def SameLatchAndProgram (s t : State) : Prop := t.latch = s.latch ∧ t.prog = s.prog

/-- Nothing is emitted, and the output port shows that (10_state.md R24, R32). -/
def EmitsNothing (s t : State) : Prop := t.out = s.out ∧ t.outPort = none

/-- The instruction writes `v` to register `r`, advances `P` (to `v + 1` if `r` is `P`, 40_step.md
R96, R101), and changes nothing else. -/
def WritesRegister (r : Reg) (v : Word) (s t : State) : Prop :=
  (r ≠ .P → t.reg r = v) ∧
  t.reg .P = (if r = .P then v else s.reg .P) + 1 ∧
  SameRegistersBut [r] s t ∧ SameMemory s t ∧
  t.engine = s.engine ∧ SameLatchAndProgram s t ∧ EmitsNothing s t

/-- The instruction stores `v` to the data cell `a`, advances `P`, and changes nothing else. -/
def StoresCell (a : Nat) (v : Word) (s t : State) : Prop :=
  t.cell a = v ∧ (∀ b, b ≠ a → t.cell b = s.cell b) ∧
  t.reg .P = s.reg .P + 1 ∧ SameRegistersBut [] s t ∧
  t.engine = s.engine ∧ SameLatchAndProgram s t ∧ EmitsNothing s t

/-- The instruction sets `P` to `target` and changes nothing else. -/
def SetsPc (target : Word) (s t : State) : Prop :=
  t.reg .P = target ∧ SameRegistersBut [] s t ∧ SameMemory s t ∧
  t.engine = s.engine ∧ SameLatchAndProgram s t ∧ EmitsNothing s t

/-- The step faulted: the engine is halted, the latch holds `l`, and nothing else changed
(60_exceptions.md R160). -/
def FaultedWith (l : Latch) (s t : State) : Prop :=
  t.engine = .haltedFault ∧ t.latch = l ∧
  (∀ q, t.reg q = s.reg q) ∧ SameMemory s t ∧ t.prog = s.prog ∧ EmitsNothing s t

/-- The value `P` has after an instruction's write of `v` to `r`, before the increment (40_step.md
R96). -/
def pcBeforeIncrement (r : Reg) (v : Int) (s : State) : Int :=
  if r = .P then v else (s.reg .P).toInt

/-- `INT_MAX` as a bit pattern. -/
def intMaxWord : Word := 0x7FFFFFFF#32

/-! ### The invariant -/

/-- The latch of a halted run holds one fault as 60_exceptions.md R151 records it, from an origin
that R152 to R157 name. -/
def latchCoherent (l : Latch) : Bool :=
  match l.err.toNat with
  | 1 => l.fopa == 0 && l.fopb == 0 &&
      [0x00, 0x01, 0x02, 0x04, 0x05, 0x0C, 0x0D, 0x0E, 0x0F].contains l.fopc.toNat
  | 2 => l.faddr == 0 &&
      ([0x07, 0x08, 0x09, 0x0A, 0x0B].contains l.fopc.toNat ||
        [0x01, 0x02, 0x03, 0x06].contains l.fopc.toNat && l.fopa == intMaxWord && l.fopb == 1)
  | 4 => l.fopc == 0x0B && l.faddr == 0 && l.fopb == 0
  | 8 => (l.fopc == 0 || decide (0x12 ≤ l.fopc.toNat)) && l.faddr == 0 && l.fopa == 0 && l.fopb == 0
  | 16 => decide (0x01 ≤ l.fopc.toNat) && decide (l.fopc.toNat ≤ 0x11) &&
      l.faddr == 0 && l.fopa == 0 && l.fopb == 0
  | 32 => decide (0x01 ≤ l.fopc.toNat) && decide (l.fopc.toNat ≤ 0x10) && l.fopc != 0x0C &&
      decide (6 ≤ l.faddr.toNat) && decide (l.faddr.toNat ≤ 15) && l.fopa == 0 && l.fopb == 0
  | _ => false

/-- The invariant: memory canonical, `PLEN` in its bound (00_scope.md R4), the latch set if and only
if the run has faulted and then with one coherent fault (10_state.md R21), a halted core emitting
nothing, and the output port showing the last value of `OUT` (10_state.md R24, R32). -/
abbrev MachineInv (s : State) : Prop :=
  Memory.wf s.mem = true ∧
  s.prog.length ≤ Config.maxPlen ∧
  (s.engine ≠ .haltedFault → s.latch = Latch.clear) ∧
  (s.engine = .haltedFault → latchCoherent s.latch = true) ∧
  (s.engine ≠ .running → s.outPort = none) ∧
  (s.outPort ≠ none → s.outPort = s.out.getLast?)

/-! ### What the spec's tables say of an instruction, apart from the meanings -/

/-- The register an instruction writes as an operand (10_state.md, table under R14). -/
def destination : Instr → Option Reg
  | .loada r _ | .load r | .loadi r _ | .addi r _ => some r
  | .move _ d | .add _ _ d | .sub _ _ d | .mul _ _ d | .div _ _ d => some d
  | .storea _ _ | .store _ | .jmp _ | .jmpr _ | .jz _ _ | .jlt _ _ _ | .print _ | .endRun => none

/-- The data address an instruction presents to the memory controller (20_memory.md R45). -/
def dataAddress (i : Instr) (s : State) : Option Word :=
  match i with
  | .loada _ a | .storea _ a => some a
  | .load _ | .store _ => some (s.reg .A)
  | _ => none

/-- The target of the jump an instruction takes (43_jumps.md R137 to R140). -/
def takenTarget (i : Instr) (s : State) : Option Word :=
  match i with
  | .jmp t => some t
  | .jmpr r => some (s.reg r)
  | .jz r t => if s.reg r = 0 then some t else none
  | .jlt a b t => if (s.reg a).toInt < (s.reg b).toInt then some t else none
  | _ => none

/-- The exact result of an arithmetic instruction (42_arithmetic.md R120 to R127); none for a zero
divisor and for every other instruction. -/
def exactResult (i : Instr) (s : State) : Option Int :=
  match i with
  | .addi r v => some ((s.reg r).toInt + v.toInt)
  | .add a b _ => some ((s.reg a).toInt + (s.reg b).toInt)
  | .sub a b _ => some ((s.reg a).toInt - (s.reg b).toInt)
  | .mul a b _ => some ((s.reg a).toInt * (s.reg b).toInt)
  | .div a b _ => if s.reg b = 0 then none else some ((s.reg a).toInt.tdiv (s.reg b).toInt)
  | _ => none

/-- The two operand values an arithmetic instruction reports in an overflow, in operand order
(42_arithmetic.md R120, 60_exceptions.md R153). -/
def aluOperands (i : Instr) (s : State) : Option (Word × Word) :=
  match i with
  | .addi r v => some (s.reg r, v)
  | .add a b _ | .sub a b _ | .mul a b _ | .div a b _ => some (s.reg a, s.reg b)
  | _ => none

/-- The exact value an instruction forms for its destination, before any check of its range: loads
and moves as well as arithmetic; none where there is no destination, or where the address or the
divisor faults. -/
def resultValue (i : Instr) (s : State) : Option Int :=
  match i with
  | .loada _ a => if InData a then some (s.cell a.toNat).toInt else none
  | .load _ => if InData (s.reg .A) then some (s.cell (s.reg .A).toNat).toInt else none
  | .loadi _ v => some v.toInt
  | .move a _ => some (s.reg a).toInt
  | _ => exactResult i s

/-- Two states agree on everything an instruction can read: registers, data memory, engine state and
program (10_state.md R21, R24, R28). -/
def SameReadableState (s t : State) : Prop :=
  s.regs = t.regs ∧ s.mem = t.mem ∧ s.engine = t.engine ∧ s.prog = t.prog

/-- The register fields an opcode's format uses, in the order `r1`, `r2`, `r3` (30_encoding.md
R65). -/
def usedRegisterFields (o : Opcode) (w : InstrWord) : List (BitVec 4) :=
  [w.extractLsb' 52 4, w.extractLsb' 48 4, w.extractLsb' 44 4].take o.format.registerCount

/-! ### What the text of an instruction is, apart from the assembler -/

/-- The register operands of an instruction, in assembly order (30_encoding.md R64, R65). -/
def registerOperands : Instr → List Reg
  | .loada r _ | .load r | .loadi r _ | .storea r _ | .store r | .addi r _ => [r]
  | .move s d => [s, d]
  | .add a b d | .sub a b d | .mul a b d | .div a b d => [a, b, d]
  | .jmp _ | .endRun => []
  | .jmpr r | .jz r _ | .print r => [r]
  | .jlt a b _ => [a, b]

/-- The one address or immediate operand of an instruction (30_encoding.md R64, R65). -/
def immediateOperand : Instr → Option Word
  | .loada _ v | .loadi _ v | .storea _ v | .addi _ v | .jmp v | .jz _ v | .jlt _ _ v => some v
  | .load _ | .store _ | .move _ _ | .add _ _ _ | .sub _ _ _ | .mul _ _ _ | .div _ _ _ | .jmpr _
  | .print _ | .endRun => none

/-- The token that names a register (30_encoding.md R76). -/
def registerName : Reg → Token
  | .A => ['A']
  | .B => ['B']
  | .C => ['C']
  | .D => ['D']
  | .P => ['P']
  | .X => ['X']

/-- The token is an optional `-` and one or more decimal digits, the most significant first, and `n`
is its value (30_encoding.md R77). -/
def SpellsInteger (t : Token) (n : Int) : Prop :=
  ∃ (digits : List Nat) (value : Nat),
    digits ≠ [] ∧ (∀ d ∈ digits, d < 10) ∧ value = Nat.ofDigits 10 digits.reverse ∧
    ((t = digits.map Nat.digitChar ∧ n = value) ∨
      (t = '-' :: digits.map Nat.digitChar ∧ n = -(value : Int)))

/-- The tokens are an instruction's mnemonic, the names of its registers in assembly order, and then
its integer, if it has one (30_encoding.md R75 to R78). -/
def SpellsInstr (tokens : List Token) (i : Instr) : Prop :=
  ∃ integers : List Token,
    tokens = i.opcode.mnemonic.toList :: ((registerOperands i).map registerName ++ integers) ∧
    match immediateOperand i with
    | none => integers = []
    | some v => ∃ t, integers = [t] ∧ SpellsInteger t v.toInt

end Sys2Proof.Machine
end

