-- ==== Sys2Proof/Certificates/Slice0/Obligations.lean ====
section
/-! DEFINITION. The statements for the provers. Each docstring names the rule of spec/ it formalises.
Literals stand where the rule has literals, so that a statement does not move with the model. -/

open Sys2Proof Sys2Proof.Machine

/-! ### Encoding (30_encoding.md) -/

/-- Words written out in 30_encoding.md section 4 and 95_test_vectors.md section 2.1, one per format,
decode to the instructions they stand for. The word layout and the numbers are the spec's own decisions
D5, D6 and D7 (log entry 9). -/
def Obligations.WrittenOutWordsDecode : Prop :=
  decode 0x0120000000000064 = .ok (.loada .C 100) ∧
  decode 0x0230000000000000 = .ok (.load .D) ∧
  decode 0x0645000000000000 = .ok (.move .P .X) ∧
  decode 0x0A23500000000000 = .ok (.mul .C .D .X) ∧
  decode 0x0C00000000000006 = .ok (.jmp 6) ∧
  decode 0x0F000000FFFFFFFC = .ok (.jlt .A .A (-4)) ∧
  decode 0x1100000000000000 = .ok .endRun ∧
  decode 0 = .error (.unknownOpcode 0) ∧
  decode 0x0260000000000001 = .error (.wrongOperandCount 0x02) ∧
  decode 0x08F7200000000000 = .error (.invalidRegister 0x08 15)

/-- Decoding the encoding of an instruction gives it back, every register and every 32-bit operand
included (30_encoding.md R61, R64, R65, R71). The word layout and the numbers are the spec's own
decisions D5, D6 and D7 (log entry 9). -/
def Obligations.DecodeOfEncodeIsTheInstruction : Prop :=
  ∀ i : Instr, decode (encode i) = .ok i

/-- A word that decodes is the encoding of what it decodes to: no instruction has two words
(30_encoding.md R67, R70). That a surplus bit is refused is the spec's own decision D8 (log entry 9). -/
def Obligations.DecodedWordIsTheEncoding : Prop :=
  ∀ (w : InstrWord) (i : Instr), decode w = .ok i → encode i = w

/-- The decoder accepts exactly the words that a row of opcode_table.json accepts, and the row's opcode
is the decoded instruction's (30_encoding.md R64, R69). The table's numbers and masks are the spec's own
decisions D5 to D8 (log entry 9). -/
def Obligations.DecoderAgreesWithOpcodeTable : Prop :=
  ∀ w : InstrWord,
    (wordWellFormed w = true ↔ ∃ i, decode w = .ok i) ∧
    (∀ row ∈ opcodeTable, row.accepts w = true → ∃ i, decode w = .ok i ∧ i.opcode = row.opcode)

/-- Stepping at a word: an unknown opcode, a bit under the format's mask, and the first bad register
field in the order r1, r2, r3 raise the three decode faults in this order; any other word is executed
(30_encoding.md section 3; 60_exceptions.md section 2). That a surplus operand is the fault
`WrongOperandCount`, the order of the three, and what the latch records are the spec's own decisions
D6, D8, D9 and D18 (log entry 9). -/
def Obligations.IllegalWordsFaultInOrder : Prop :=
  ∀ (s : State) (w : InstrWord), s.engine = .running → 0 ≤ (s.reg .P).toInt →
    s.prog[(s.reg .P).toInt.toNat]? = some w →
    let op : BitVec 8 := w.extractLsb' 56 8
    ((op.toNat = 0 ∨ 0x12 ≤ op.toNat) →
      ∃ t, step s = .next t ∧ FaultedWith ⟨0x08, op, 0, 0, 0⟩ s t) ∧
    (∀ o : Opcode, op = o.byte → w &&& o.format.mbz ≠ 0 →
      ∃ t, step s = .next t ∧ FaultedWith ⟨0x10, op, 0, 0, 0⟩ s t) ∧
    (∀ (o : Opcode) (n : BitVec 4), op = o.byte → w &&& o.format.mbz = 0 →
      (usedRegisterFields o w).find? (fun k => decide (6 ≤ k.toNat)) = some n →
      ∃ t, step s = .next t ∧ FaultedWith ⟨0x20, op, n.setWidth 32, 0, 0⟩ s t) ∧
    (∀ o : Opcode, op = o.byte → w &&& o.format.mbz = 0 →
      (usedRegisterFields o w).find? (fun k => decide (6 ≤ k.toNat)) = none →
      ∃ i, decode w = .ok i ∧ i.opcode = o ∧ step s = exec i s)

/-- The byte image of a program holds each word most significant byte first, and reading the image gives
the program back (20_memory.md R48). The order is the spec's own decision D22 (log entry 9). -/
def Obligations.ByteImageReadsBack : Prop :=
  ∀ prog : List InstrWord,
    programOfImage (imageOfProgram prog) = some prog ∧
    (imageOfProgram prog).length = 8 * prog.length ∧
    ∀ (n : Nat) (w : InstrWord), prog[n]? = some w →
      ∀ k : Nat, k < 8 → (imageOfProgram prog)[8 * n + k]? = some (w.extractLsb' (56 - 8 * k) 8)

/-! ### Memory controller (20_memory.md) -/

/-- A write in bounds reads back and leaves every other cell; a read or write out of bounds faults
with the address; memory nothing has written reads 0 (20_memory.md section 1). That memory is a list
in a canonical form, which a write keeps, is the model's own (log entry 2). -/
def Obligations.MemoryControllerRoundTrip : Prop :=
  ∀ (m : Memory) (a v : Word), Memory.wf m = true →
    (0 ≤ a.toInt ∧ a.toInt < 2048 →
      memRead m a = .ok (Memory.read m a.toNat) ∧ memRead [] a = .ok 0 ∧
      ∃ m', memWrite m a v = .ok m' ∧ memRead m' a = .ok v ∧ Memory.wf m' = true ∧
        ∀ b : Word, b ≠ a → memRead m' b = memRead m b) ∧
    (¬ (0 ≤ a.toInt ∧ a.toInt < 2048) →
      memRead m a = .error (.outOfBounds a) ∧ memWrite m a v = .error (.outOfBounds a))

/-! ### ALU (42_arithmetic.md) -/

/-- Sum, difference and product are exact, or the overflow of the operation with its operands; never
a wrapped value (42_arithmetic.md R120). -/
def Obligations.AluIsExactOrOverflows : Prop :=
  ∀ (op : BitVec 8) (a b : Word),
    let agrees (answer : Except FaultValue Word) (exact : Int) : Prop :=
      (-2147483648 ≤ exact ∧ exact ≤ 2147483647 → ∃ v : Word, answer = .ok v ∧ v.toInt = exact) ∧
      (¬ (-2147483648 ≤ exact ∧ exact ≤ 2147483647) → answer = .error (.overflow op a b))
    agrees (aluAdd op a b) (a.toInt + b.toInt) ∧
    agrees (aluSub op a b) (a.toInt - b.toInt) ∧
    agrees (aluMul op a b) (a.toInt * b.toInt)

/-- The quotient truncates toward zero: the remainder is smaller than the divisor and is zero or of
the dividend's sign, and neither it nor the product it is computed from overflows; `INT_MIN ÷ −1`
overflows, a zero divisor is its own fault (42_arithmetic.md sections 1 and 2). That `INT_MIN ÷ −1`
overflows is the spec's own decision D11 (log entry 9). -/
def Obligations.DivisionTruncatesTowardZero : Prop :=
  ∀ a b : Word,
    (b = 0 → aluDiv 0x0B a b = .error (.divideByZero a)) ∧
    (a.toInt = -2147483648 → b.toInt = -1 → aluDiv 0x0B a b = .error (.overflow 0x0B a b)) ∧
    (b ≠ 0 → ¬ (a.toInt = -2147483648 ∧ b.toInt = -1) →
      ∃ q : Word, aluDiv 0x0B a b = .ok q ∧
        ∃ r : Int, a.toInt = q.toInt * b.toInt + r ∧ |r| < |b.toInt| ∧
          (r = 0 ∨ (0 < r ∧ 0 < a.toInt) ∨ (r < 0 ∧ a.toInt < 0)) ∧
          InRange (q.toInt * b.toInt) ∧ InRange r)

/-! ### The instructions: loads, stores and moves (41_load_store_move.md) -/

/-- LOADA (41_load_store_move.md R110): its encoding, its result and everything it leaves unchanged, the
overflow of the increment where it wrote `INT_MAX` into `P`, and the fault of its address. Derived: what
a write to `P` does, the overflow of the increment and the latch are the spec's own decisions D12, D15
and D18 (log entry 9), and that the increment overflows at `P` = `INT_MAX` for another destination too,
which no fetched `P` is, is log entry 8. -/
def Obligations.LoadaLoadsTheAddressedCell : Prop :=
  ∀ (r : Reg) (addr : Word) (s : State),
    let v := s.cell addr.toNat
    (encode (.loada r addr) = packWord 0x01 r.number 0 0 addr ∧
      decode (packWord 0x01 r.number 0 0 addr) = .ok (.loada r addr)) ∧
    encode (.loada .C 100) = 0x0120000000000064 ∧
    ((∀ u, (addr.toNat, u) ∉ s.mem) → v = 0) ∧
    (0 ≤ addr.toInt ∧ addr.toInt < 2048 → pcBeforeIncrement r v.toInt s ≠ 2147483647 →
      ∃ t, exec (.loada r addr) s = .next t ∧ WritesRegister r v s t) ∧
    (0 ≤ addr.toInt ∧ addr.toInt < 2048 → pcBeforeIncrement r v.toInt s = 2147483647 →
      ∃ t, exec (.loada r addr) s = .next t ∧ FaultedWith ⟨0x02, 0x01, 0, intMaxWord, 1⟩ s t) ∧
    (¬ (0 ≤ addr.toInt ∧ addr.toInt < 2048) →
      ∃ t, exec (.loada r addr) s = .next t ∧ FaultedWith ⟨0x01, 0x01, addr, 0, 0⟩ s t)

/-- LOAD (41_load_store_move.md R111): the address is the value of `A` before the write. Derived: what a
write to `P` does, the overflow of the increment and the latch are the spec's own decisions D12, D15 and
D18 (log entry 9), and that the increment overflows at `P` = `INT_MAX` for another destination too,
which no fetched `P` is, is log entry 8. -/
def Obligations.LoadLoadsTheCellAddressedByA : Prop :=
  ∀ (r : Reg) (s : State),
    let a := s.reg .A
    let v := s.cell a.toNat
    (encode (.load r) = packWord 0x02 r.number 0 0 0 ∧
      decode (packWord 0x02 r.number 0 0 0) = .ok (.load r)) ∧
    encode (.load .D) = 0x0230000000000000 ∧ State.reset.reg .A = 0 ∧
    (0 ≤ a.toInt ∧ a.toInt < 2048 → pcBeforeIncrement r v.toInt s ≠ 2147483647 →
      ∃ t, exec (.load r) s = .next t ∧ WritesRegister r v s t) ∧
    (0 ≤ a.toInt ∧ a.toInt < 2048 → pcBeforeIncrement r v.toInt s = 2147483647 →
      ∃ t, exec (.load r) s = .next t ∧ FaultedWith ⟨0x02, 0x02, 0, intMaxWord, 1⟩ s t) ∧
    (¬ (0 ≤ a.toInt ∧ a.toInt < 2048) →
      ∃ t, exec (.load r) s = .next t ∧ FaultedWith ⟨0x01, 0x02, a, 0, 0⟩ s t)

/-- LOADI (41_load_store_move.md R112): every 32-bit value can be loaded. Derived: what a write to `P`
does, the overflow of the increment and the latch are the spec's own decisions D12, D15 and D18 (log
entry 9), and that the increment overflows at `P` = `INT_MAX` for another destination too, which no
fetched `P` is, is log entry 8. -/
def Obligations.LoadiLoadsTheImmediate : Prop :=
  ∀ (r : Reg) (imm : Word) (s : State),
    (encode (.loadi r imm) = packWord 0x03 r.number 0 0 imm ∧
      decode (packWord 0x03 r.number 0 0 imm) = .ok (.loadi r imm)) ∧
    encode (.loadi .A 5) = 0x0300000000000005 ∧ encode (.loadi .B (-3)) = 0x03100000FFFFFFFD ∧
    (pcBeforeIncrement r imm.toInt s ≠ 2147483647 →
      ∃ t, exec (.loadi r imm) s = .next t ∧ WritesRegister r imm s t) ∧
    (pcBeforeIncrement r imm.toInt s = 2147483647 →
      ∃ t, exec (.loadi r imm) s = .next t ∧ FaultedWith ⟨0x02, 0x03, 0, intMaxWord, 1⟩ s t)

/-- STOREA (41_load_store_move.md R113): the cell at the immediate gets the register's value. Derived:
the overflow of the increment at `P` = `INT_MAX`, which no fetched `P` is, is log entry 8, and it and
the latch are the spec's own decisions D12 and D18 (log entry 9). -/
def Obligations.StoreaStoresToTheAddressedCell : Prop :=
  ∀ (r : Reg) (addr : Word) (s : State), Memory.wf s.mem = true →
    (encode (.storea r addr) = packWord 0x04 r.number 0 0 addr ∧
      decode (packWord 0x04 r.number 0 0 addr) = .ok (.storea r addr)) ∧
    encode (.storea .X 2047) = 0x04500000000007FF ∧
    (0 ≤ addr.toInt ∧ addr.toInt < 2048 → (s.reg .P).toInt ≠ 2147483647 →
      ∃ t, exec (.storea r addr) s = .next t ∧ StoresCell addr.toNat (s.reg r) s t) ∧
    (0 ≤ addr.toInt ∧ addr.toInt < 2048 → (s.reg .P).toInt = 2147483647 →
      ∃ t, exec (.storea r addr) s = .next t ∧ FaultedWith ⟨0x02, 0x04, 0, intMaxWord, 1⟩ s t) ∧
    (¬ (0 ≤ addr.toInt ∧ addr.toInt < 2048) →
      ∃ t, exec (.storea r addr) s = .next t ∧ FaultedWith ⟨0x01, 0x04, addr, 0, 0⟩ s t)

/-- STORE (41_load_store_move.md R114): the cell whose address the model computes by `indirectAddress`,
the value of `A`, gets the register's value. Derived: the overflow of the increment at `P` = `INT_MAX`,
which no fetched `P` is, is log entry 8, and it and the latch are the spec's own decisions D12 and D18
(log entry 9). -/
def Obligations.StoreStoresToTheCellAddressedByA : Prop :=
  ∀ (r : Reg) (s : State), Memory.wf s.mem = true →
    let a := indirectAddress s
    a = s.reg .A ∧
    (encode (.store r) = packWord 0x05 r.number 0 0 0 ∧
      decode (packWord 0x05 r.number 0 0 0) = .ok (.store r)) ∧
    encode (.store .B) = 0x0510000000000000 ∧
    (0 ≤ a.toInt ∧ a.toInt < 2048 → (s.reg .P).toInt ≠ 2147483647 →
      ∃ t, exec (.store r) s = .next t ∧ StoresCell a.toNat (s.reg r) s t) ∧
    (0 ≤ a.toInt ∧ a.toInt < 2048 → (s.reg .P).toInt = 2147483647 →
      ∃ t, exec (.store r) s = .next t ∧ FaultedWith ⟨0x02, 0x05, 0, intMaxWord, 1⟩ s t) ∧
    (¬ (0 ≤ a.toInt ∧ a.toInt < 2048) →
      ∃ t, exec (.store r) s = .next t ∧ FaultedWith ⟨0x01, 0x05, a, 0, 0⟩ s t)

/-- MOVE (41_load_store_move.md R115): the source is the first operand, the destination the second;
`MOVE r r` changes nothing but `P`. Derived: what a write to `P` does, the overflow of the increment and
the latch are the spec's own decisions D12, D15 and D18 (log entry 9), and that the increment overflows
at `P` = `INT_MAX` for another destination too, which no fetched `P` is, is log entry 8. -/
def Obligations.MoveCopiesFirstToSecond : Prop :=
  ∀ (src dst : Reg) (s : State),
    let v := s.reg src
    (encode (.move src dst) = packWord 0x06 src.number dst.number 0 0 ∧
      decode (packWord 0x06 src.number dst.number 0 0) = .ok (.move src dst)) ∧
    encode (.move .P .X) = 0x0645000000000000 ∧
    (pcBeforeIncrement dst v.toInt s ≠ 2147483647 →
      ∃ t, exec (.move src dst) s = .next t ∧ WritesRegister dst v s t ∧
        (src = dst → SetsPc (s.reg .P + 1) s t)) ∧
    (pcBeforeIncrement dst v.toInt s = 2147483647 →
      ∃ t, exec (.move src dst) s = .next t ∧ FaultedWith ⟨0x02, 0x06, 0, intMaxWord, 1⟩ s t)

/-! ### The instructions: arithmetic (42_arithmetic.md) -/

/-- ADDI (42_arithmetic.md R121): the exact sum of register and immediate, or its overflow. Derived:
what a write to `P` does, the overflow of the increment and the latch are the spec's own decisions D12,
D15 and D18 (log entry 9), and that the increment overflows at `P` = `INT_MAX` for another destination
too, which no fetched `P` is, is log entry 8. -/
def Obligations.AddiAddsTheImmediate : Prop :=
  ∀ (r : Reg) (imm : Word) (s : State),
    let exact := (s.reg r).toInt + imm.toInt
    let fits := -2147483648 ≤ exact ∧ exact ≤ 2147483647
    (encode (.addi r imm) = packWord 0x07 r.number 0 0 imm ∧
      decode (packWord 0x07 r.number 0 0 imm) = .ok (.addi r imm)) ∧
    encode (.addi .B (-1)) = 0x07100000FFFFFFFF ∧
    (fits → pcBeforeIncrement r exact s ≠ 2147483647 →
      ∃ t v, exec (.addi r imm) s = .next t ∧ v.toInt = exact ∧ WritesRegister r v s t) ∧
    (fits → pcBeforeIncrement r exact s = 2147483647 →
      ∃ t, exec (.addi r imm) s = .next t ∧ FaultedWith ⟨0x02, 0x07, 0, intMaxWord, 1⟩ s t) ∧
    (¬ fits → ∃ t, exec (.addi r imm) s = .next t ∧
      FaultedWith ⟨0x02, 0x07, 0, s.reg r, imm⟩ s t)

/-- ADD (42_arithmetic.md R122): the exact sum, or its overflow; any operands may be one register.
Derived: what a write to `P` does, the overflow of the increment and the latch are the spec's own
decisions D12, D15 and D18 (log entry 9), and that the increment overflows at `P` = `INT_MAX` for
another destination too, which no fetched `P` is, is log entry 8. -/
def Obligations.AddAddsTwoRegisters : Prop :=
  ∀ (a b d : Reg) (s : State),
    let exact := (s.reg a).toInt + (s.reg b).toInt
    let fits := -2147483648 ≤ exact ∧ exact ≤ 2147483647
    (encode (.add a b d) = packWord 0x08 a.number b.number d.number 0 ∧
      decode (packWord 0x08 a.number b.number d.number 0) = .ok (.add a b d)) ∧
    encode (.add .A .B .C) = 0x0801200000000000 ∧
    (fits → pcBeforeIncrement d exact s ≠ 2147483647 →
      ∃ t v, exec (.add a b d) s = .next t ∧ v.toInt = exact ∧ WritesRegister d v s t) ∧
    (fits → pcBeforeIncrement d exact s = 2147483647 →
      ∃ t, exec (.add a b d) s = .next t ∧ FaultedWith ⟨0x02, 0x08, 0, intMaxWord, 1⟩ s t) ∧
    (¬ fits → ∃ t, exec (.add a b d) s = .next t ∧
      FaultedWith ⟨0x02, 0x08, 0, s.reg a, s.reg b⟩ s t)

/-- SUB (42_arithmetic.md R123): the exact difference, or its overflow. Derived: what a write to `P`
does, the overflow of the increment and the latch are the spec's own decisions D12, D15 and D18 (log
entry 9), and that the increment overflows at `P` = `INT_MAX` for another destination too, which no
fetched `P` is, is log entry 8. -/
def Obligations.SubSubtractsTwoRegisters : Prop :=
  ∀ (a b d : Reg) (s : State),
    let exact := (s.reg a).toInt - (s.reg b).toInt
    let fits := -2147483648 ≤ exact ∧ exact ≤ 2147483647
    (encode (.sub a b d) = packWord 0x09 a.number b.number d.number 0 ∧
      decode (packWord 0x09 a.number b.number d.number 0) = .ok (.sub a b d)) ∧
    encode (.sub .A .B .C) = 0x0901200000000000 ∧
    (fits → pcBeforeIncrement d exact s ≠ 2147483647 →
      ∃ t v, exec (.sub a b d) s = .next t ∧ v.toInt = exact ∧ WritesRegister d v s t) ∧
    (fits → pcBeforeIncrement d exact s = 2147483647 →
      ∃ t, exec (.sub a b d) s = .next t ∧ FaultedWith ⟨0x02, 0x09, 0, intMaxWord, 1⟩ s t) ∧
    (¬ fits → ∃ t, exec (.sub a b d) s = .next t ∧
      FaultedWith ⟨0x02, 0x09, 0, s.reg a, s.reg b⟩ s t)

/-- MUL (42_arithmetic.md R124): the exact product, or its overflow. Derived: what a write to `P` does,
the overflow of the increment and the latch are the spec's own decisions D12, D15 and D18 (log entry 9),
and that the increment overflows at `P` = `INT_MAX` for another destination too, which no fetched `P`
is, is log entry 8. -/
def Obligations.MulMultipliesTwoRegisters : Prop :=
  ∀ (a b d : Reg) (s : State),
    let exact := (s.reg a).toInt * (s.reg b).toInt
    let fits := -2147483648 ≤ exact ∧ exact ≤ 2147483647
    (encode (.mul a b d) = packWord 0x0A a.number b.number d.number 0 ∧
      decode (packWord 0x0A a.number b.number d.number 0) = .ok (.mul a b d)) ∧
    encode (.mul .C .D .X) = 0x0A23500000000000 ∧
    (fits → pcBeforeIncrement d exact s ≠ 2147483647 →
      ∃ t v, exec (.mul a b d) s = .next t ∧ v.toInt = exact ∧ WritesRegister d v s t) ∧
    (fits → pcBeforeIncrement d exact s = 2147483647 →
      ∃ t, exec (.mul a b d) s = .next t ∧ FaultedWith ⟨0x02, 0x0A, 0, intMaxWord, 1⟩ s t) ∧
    (¬ fits → ∃ t, exec (.mul a b d) s = .next t ∧
      FaultedWith ⟨0x02, 0x0A, 0, s.reg a, s.reg b⟩ s t)

/-- DIV (42_arithmetic.md R125): the quotient truncated toward zero, `DivideByZero` for a zero divisor
whatever the dividend, `Overflow` for `INT_MIN ÷ −1`. Derived: that `INT_MIN ÷ −1` overflows, what a
write to `P` does, the overflow of the increment and the latch are the spec's own decisions D11, D12,
D15 and D18 (log entry 9), and that the increment overflows at `P` = `INT_MAX` for another destination
too, which no fetched `P` is, is log entry 8. -/
def Obligations.DivDividesTwoRegisters : Prop :=
  ∀ (a b d : Reg) (s : State),
    let x := (s.reg a).toInt
    let y := (s.reg b).toInt
    let tooLarge := x = -2147483648 ∧ y = -1
    (encode (.div a b d) = packWord 0x0B a.number b.number d.number 0 ∧
      decode (packWord 0x0B a.number b.number d.number 0) = .ok (.div a b d)) ∧
    encode (.div .A .B .C) = 0x0B01200000000000 ∧
    (y ≠ 0 → ¬ tooLarge → pcBeforeIncrement d (x.tdiv y) s ≠ 2147483647 →
      ∃ t v, exec (.div a b d) s = .next t ∧ v.toInt = x.tdiv y ∧ WritesRegister d v s t) ∧
    (y ≠ 0 → ¬ tooLarge → pcBeforeIncrement d (x.tdiv y) s = 2147483647 →
      ∃ t, exec (.div a b d) s = .next t ∧ FaultedWith ⟨0x02, 0x0B, 0, intMaxWord, 1⟩ s t) ∧
    (tooLarge → ∃ t, exec (.div a b d) s = .next t ∧
      FaultedWith ⟨0x02, 0x0B, 0, s.reg a, s.reg b⟩ s t) ∧
    (y = 0 → ∃ t, exec (.div a b d) s = .next t ∧ FaultedWith ⟨0x04, 0x0B, 0, s.reg a, 0⟩ s t)

/-! ### The instructions: control transfer (43_jumps.md) -/

/-- JMP (43_jumps.md R137): `P` becomes the immediate if it is an index of the program, else
`OutOfBounds`. Derived: the fault of a bad target and the latch are the spec's own decisions D16 and D18
(log entry 9). -/
def Obligations.JmpJumpsToTheImmediate : Prop :=
  ∀ (target : Word) (s : State),
    let inside := 0 ≤ target.toInt ∧ target.toInt < s.prog.length
    (encode (.jmp target) = packWord 0x0C 0 0 0 target ∧
      decode (packWord 0x0C 0 0 0 target) = .ok (.jmp target)) ∧
    encode (.jmp 2) = 0x0C00000000000002 ∧
    (inside → ∃ t, exec (.jmp target) s = .next t ∧ SetsPc target s t) ∧
    (¬ inside → ∃ t, exec (.jmp target) s = .next t ∧
      FaultedWith ⟨0x01, 0x0C, target, 0, 0⟩ s t)

/-- JMPR (43_jumps.md R138): `P` becomes the register's value if it is an index of the program, else
`OutOfBounds`; at a fetched index `JMPR P` loops. Derived: the fault of a bad target and the latch are
the spec's own decisions D16 and D18 (log entry 9). -/
def Obligations.JmprJumpsToTheRegister : Prop :=
  ∀ (r : Reg) (s : State),
    let target := s.reg r
    let inside := 0 ≤ target.toInt ∧ target.toInt < s.prog.length
    (encode (.jmpr r) = packWord 0x0D r.number 0 0 0 ∧
      decode (packWord 0x0D r.number 0 0 0) = .ok (.jmpr r)) ∧
    encode (.jmpr .X) = 0x0D50000000000000 ∧ State.reset.reg r = 0 ∧
    (inside → ∃ t, exec (.jmpr r) s = .next t ∧ SetsPc target s t) ∧
    (¬ inside → ∃ t, exec (.jmpr r) s = .next t ∧ FaultedWith ⟨0x01, 0x0D, target, 0, 0⟩ s t)

/-- JZ (43_jumps.md R139): taken exactly if the register is 0 in all 32 bits; only a taken jump checks
its target; otherwise `P` advances by one. Derived: the overflow of the increment at `P` = `INT_MAX`,
which no fetched `P` is, is log entry 8; it, the fault of a bad target and the latch are the spec's own
decisions D12, D16 and D18 (log entry 9). -/
def Obligations.JzJumpsIfZero : Prop :=
  ∀ (r : Reg) (target : Word) (s : State),
    let inside := 0 ≤ target.toInt ∧ target.toInt < s.prog.length
    (encode (.jz r target) = packWord 0x0E r.number 0 0 target ∧
      decode (packWord 0x0E r.number 0 0 target) = .ok (.jz r target)) ∧
    encode (.jz .B 6) = 0x0E10000000000006 ∧
    (s.reg r = 0 → inside → ∃ t, exec (.jz r target) s = .next t ∧ SetsPc target s t) ∧
    (s.reg r = 0 → ¬ inside → ∃ t, exec (.jz r target) s = .next t ∧
      FaultedWith ⟨0x01, 0x0E, target, 0, 0⟩ s t) ∧
    (s.reg r ≠ 0 → (s.reg .P).toInt ≠ 2147483647 →
      ∃ t, exec (.jz r target) s = .next t ∧ SetsPc (s.reg .P + 1) s t) ∧
    (s.reg r ≠ 0 → (s.reg .P).toInt = 2147483647 →
      ∃ t, exec (.jz r target) s = .next t ∧ FaultedWith ⟨0x02, 0x0E, 0, intMaxWord, 1⟩ s t)

/-- JLT (43_jumps.md R140): taken exactly if the first register is less than the second as a signed
number; only a taken jump checks its target. Derived: the overflow of the increment at `P` = `INT_MAX`,
which no fetched `P` is, is log entry 8; it, the fault of a bad target and the latch are the spec's own
decisions D12, D16 and D18 (log entry 9). -/
def Obligations.JltJumpsIfLess : Prop :=
  ∀ (a b : Reg) (target : Word) (s : State),
    let less := (s.reg a).toInt < (s.reg b).toInt
    let inside := 0 ≤ target.toInt ∧ target.toInt < s.prog.length
    (encode (.jlt a b target) = packWord 0x0F a.number b.number 0 target ∧
      decode (packWord 0x0F a.number b.number 0 target) = .ok (.jlt a b target)) ∧
    encode (.jlt .D .C 11) = 0x0F3200000000000B ∧
    (less → inside → ∃ t, exec (.jlt a b target) s = .next t ∧ SetsPc target s t) ∧
    (less → ¬ inside → ∃ t, exec (.jlt a b target) s = .next t ∧
      FaultedWith ⟨0x01, 0x0F, target, 0, 0⟩ s t) ∧
    (¬ less → (s.reg .P).toInt ≠ 2147483647 →
      ∃ t, exec (.jlt a b target) s = .next t ∧ SetsPc (s.reg .P + 1) s t) ∧
    (¬ less → (s.reg .P).toInt = 2147483647 →
      ∃ t, exec (.jlt a b target) s = .next t ∧ FaultedWith ⟨0x02, 0x0F, 0, intMaxWord, 1⟩ s t)

/-! ### The instructions: environment (44_print_end.md) -/

/-- PRINT (44_print_end.md R145): the register's value is appended to `OUT` and shown on the output
port; no register but `P` and no cell changes. Derived: the overflow of the increment at `P` =
`INT_MAX`, which no fetched `P` is, is log entry 8, and it and the latch are the spec's own decisions
D12 and D18 (log entry 9). -/
def Obligations.PrintEmitsTheRegister : Prop :=
  ∀ (r : Reg) (s : State),
    (encode (.print r) = packWord 0x10 r.number 0 0 0 ∧
      decode (packWord 0x10 r.number 0 0 0) = .ok (.print r)) ∧
    encode (.print .C) = 0x1020000000000000 ∧
    ((s.reg .P).toInt ≠ 2147483647 →
      ∃ t, exec (.print r) s = .next t ∧
        t.out = s.out ++ [s.reg r] ∧ t.outPort = some (s.reg r) ∧
        t.ports.outValid = 1 ∧ t.ports.outData = some (s.reg r) ∧
        t.reg .P = s.reg .P + 1 ∧ SameRegistersBut [] s t ∧ SameMemory s t ∧
        t.engine = s.engine ∧ SameLatchAndProgram s t) ∧
    ((s.reg .P).toInt = 2147483647 →
      ∃ t, exec (.print r) s = .next t ∧ FaultedWith ⟨0x02, 0x10, 0, intMaxWord, 1⟩ s t)

/-- END (44_print_end.md, its second rule): its only word, the normal halt, `P` advanced, the latch
untouched, and no step after it. That `P` advances is the spec's own decision D14 (log entry 9). The
overflow of the increment at `P` = `INT_MAX`, which no fetched `P` is, is log entry 8 and the decision
D12, the latch D18 (log entry 9), and the name of the stop after it log entry 3. -/
def Obligations.EndHaltsNormally : Prop :=
  ∀ s : State,
    (∀ w, decode w = .ok .endRun ↔ w = 0x1100000000000000) ∧
    ((s.reg .P).toInt ≠ 2147483647 →
      ∃ t, exec .endRun s = .next t ∧ t.engine = .haltedNormal ∧
        t.reg .P = s.reg .P + 1 ∧ SameRegistersBut [] s t ∧ SameMemory s t ∧
        SameLatchAndProgram s t ∧ EmitsNothing s t ∧ step t = .fault .haltedNormal) ∧
    ((s.reg .P).toInt = 2147483647 →
      ∃ t, exec .endRun s = .next t ∧ FaultedWith ⟨0x02, 0x11, 0, intMaxWord, 1⟩ s t)

/-! ### The step (40_step.md) -/

/-- A running core whose word at `P` decodes to an instruction executes that instruction
(40_step.md R91, R93, R94, R95). -/
def Obligations.StepRunsTheDecodedInstruction : Prop :=
  ∀ (s : State) (w : InstrWord) (i : Instr), s.engine = .running → 0 ≤ (s.reg .P).toInt →
    s.prog[(s.reg .P).toInt.toNat]? = some w → decode w = .ok i → step s = exec i s

/-- THE MODEL'S CHOICE (log entries 1 and 10): an instruction placed by `withFetchWord` is the one the
very next step executes, and nothing but the program is changed by placing it. At `P` = `INT_MAX` that
program is one word longer than `PLEN` may be (log entry 10). -/
def Obligations.PlacedWordIsExecutedNext : Prop :=
  ∀ (s : State) (w : Nat) (i : Instr), s.engine = .running → 0 ≤ (s.reg .P).toInt →
    decodeTableWord 64 w = some i →
    let t := s.withFetchWord 64 w
    step t = exec i t ∧ t = { s with prog := t.prog } ∧
    (∀ n, n < s.prog.length → n ≠ (s.reg .P).toInt.toNat → t.prog[n]? = s.prog[n]?)

/-- The fetch bounds check (40_step.md R92): a running core whose `P` is negative or at or past `PLEN`
raises `OutOfBounds(P)`, with `FOPC` 0; an empty program faults at the first step; and after the last
instruction, if it is not `END`, not a taken jump and does not write `P`, `P` is `PLEN` without fault
and the next step faults. Derived: `FOPC` and the latch are the spec's own decision D18, and a write to
`P`, which the last clause excludes, its decision D15 (log entry 9). -/
def Obligations.FetchOutsideTheProgramFaults : Prop :=
  (∀ s : State, s.engine = .running →
    ((s.reg .P).toInt < 0 ∨ (s.prog.length : Int) ≤ (s.reg .P).toInt) →
    ∃ t, step s = .next t ∧ FaultedWith ⟨0x01, 0x00, s.reg .P, 0, 0⟩ s t) ∧
  (∀ s t : State, launch s [] = some t →
    ∃ u, step t = .next u ∧ FaultedWith ⟨0x01, 0x00, 0, 0, 0⟩ t u) ∧
  (∀ (s t : State) (i : Instr), fetchInstr s = .ok i →
    (s.reg .P).toInt + 1 = s.prog.length → i ≠ .endRun → takenTarget i s = none →
    destination i ≠ some .P → step s = .next t → t.engine ≠ .haltedFault →
    (t.reg .P).toInt = s.prog.length ∧ t.engine = .running ∧
      ∃ u, step t = .next u ∧ FaultedWith ⟨0x01, 0x00, t.reg .P, 0, 0⟩ t u)

/-- The core takes a step if and only if it is running (40_step.md R90). -/
def Obligations.StepExistsExactlyWhileRunning : Prop :=
  ∀ s : State, (∃ t, step s = .next t) ↔ s.engine = .running

/-- THE MODEL'S CHOICE (log entry 3): where no step exists, in the two halted states (40_step.md
section 1), `step` answers the stop of that state's name. -/
def Obligations.HaltedStepIsAStop : Prop :=
  ∀ s : State,
    (s.engine = .haltedNormal → step s = .fault .haltedNormal) ∧
    (s.engine = .haltedFault → step s = .fault .haltedFault)

/-- The program counter after a step that did not fault: the target of a taken jump, inside the program;
else one more than the value the instruction wrote into `P`, or than `P` (40_step.md R96, R99, R101).
The bounds of a target, and a write to `P` by another instruction, are the spec's own decisions D16 and
D15 (log entry 9). -/
def Obligations.PcAfterACompletedStep : Prop :=
  ∀ (s t : State) (i : Instr), fetchInstr s = .ok i → step s = .next t →
    t.engine ≠ .haltedFault →
    (∀ d, takenTarget i s = some d →
      t.reg .P = d ∧ 0 ≤ d.toInt ∧ d.toInt < s.prog.length) ∧
    (takenTarget i s = none →
      ∃ q, (if destination i = some .P then resultValue i s else some (s.reg .P).toInt) = some q ∧
        (t.reg .P).toInt = q + 1)

/-! ### Faults (60_exceptions.md) -/

/-- The flags, cause codes and context of each fault kind (60_exceptions.md section 1; 10_state.md
section 4). The codes and the layout are the spec's own decision D18 (log entry 9). -/
def Obligations.LatchRecordsEachFaultKind : Prop :=
  ∀ (fopc op : BitVec 8) (n : BitVec 4) (a b : Word),
    latchOf fopc (.outOfBounds a) = ⟨0x01, fopc, a, 0, 0⟩ ∧
    latchOf fopc (.overflow op a b) = ⟨0x02, op, 0, a, b⟩ ∧
    latchOf fopc (.divideByZero a) = ⟨0x04, 0x0B, 0, a, 0⟩ ∧
    latchOf fopc (.unknownOpcode op) = ⟨0x08, op, 0, 0, 0⟩ ∧
    latchOf fopc (.wrongOperandCount op) = ⟨0x10, op, 0, 0, 0⟩ ∧
    latchOf fopc (.invalidRegister op n) = ⟨0x20, op, n.setWidth 32, 0, 0⟩ ∧
    (latchOf fopc .invalidAddress).err = 0 ∧
    (FaultValue.outOfBounds a).cause = 1 ∧ (FaultValue.overflow op a b).cause = 2 ∧
    (FaultValue.divideByZero a).cause = 3 ∧ (FaultValue.unknownOpcode op).cause = 4 ∧
    (FaultValue.wrongOperandCount op).cause = 5 ∧ (FaultValue.invalidRegister op n).cause = 6 ∧
    FaultValue.invalidAddress.cause = 7

/-- The abstract fault value and the latch are two views of one thing: the value of every fault the core
raises can be read back from the latch, and a clear latch shows none (10_state.md R19, R33). The latch
layout is the spec's own decision D18 (log entry 9). -/
def Obligations.LatchShowsTheFaultValue : Prop :=
  Latch.clear.faultValue = none ∧
  ∀ (fopc : BitVec 8) (f : FaultValue), f ≠ .invalidAddress → (latchOf fopc f).faultValue = some f

/-- Fault entry: a step that ends in `HaltedFault` writes the latch for one fault, never
`InvalidAddress`, and changes no register, not `P`, no cell, not `OUT` and not the program
(60_exceptions.md section 4; 40_step.md section 5, whose all-or-nothing rule is the spec's own
decision D13, log entry 9). -/
def Obligations.FaultingStepChangesOnlyTheLatch : Prop :=
  ∀ s t : State, step s = .next t → t.engine = .haltedFault →
    ∃ (fopc : BitVec 8) (f : FaultValue), f ≠ .invalidAddress ∧ FaultedWith (latchOf fopc f) s t

/-- `OutOfBounds` is raised in exactly three places, with the address or index and the opcode of its
origin: the fetch check, a data access, a taken jump (60_exceptions.md R152). Derived: the `ERR` code,
`FOPC` and `FADDR` are the spec's own decision D18, the fault of a bad target its decision D16 (log
entry 9). -/
def Obligations.OutOfBoundsHasThreeOrigins : Prop :=
  ∀ s t : State, MachineInv s → step s = .next t →
    let badFetch := (s.reg .P).toInt < 0 ∨ (s.prog.length : Int) ≤ (s.reg .P).toInt
    let badData (i : Instr) (a : Word) := fetchInstr s = .ok i ∧ dataAddress i s = some a ∧
      ¬ (0 ≤ a.toInt ∧ a.toInt < 2048)
    let badTarget (i : Instr) (a : Word) := fetchInstr s = .ok i ∧ takenTarget i s = some a ∧
      ¬ (0 ≤ a.toInt ∧ a.toInt < s.prog.length)
    (t.latch.err = 0x01 ↔ badFetch ∨ ∃ i a, badData i a ∨ badTarget i a) ∧
    (badFetch → t.latch = ⟨0x01, 0x00, s.reg .P, 0, 0⟩) ∧
    (∀ i a, badData i a ∨ badTarget i a → t.latch = ⟨0x01, i.opcode.byte, a, 0, 0⟩)

/-- `Overflow` is raised in exactly three places: an exact result out of range (for `DIV`, `INT_MIN ÷
−1`), with the operands; and the increment of `P` after a non-jump instruction wrote `INT_MAX` into it,
with `INT_MAX` and 1 (60_exceptions.md section 2). The second and third are the spec's own decisions D11
and D12 (log entry 9). The `ERR` code, `FOPC` and the operands' places are its decision D18. -/
def Obligations.OverflowHasItsOrigins : Prop :=
  ∀ s t : State, MachineInv s → step s = .next t →
    let tooLarge (i : Instr) := fetchInstr s = .ok i ∧
      ∃ e, exactResult i s = some e ∧ ¬ (-2147483648 ≤ e ∧ e ≤ 2147483647)
    let pcAtMax (i : Instr) := fetchInstr s = .ok i ∧ destination i = some .P ∧
      resultValue i s = some 2147483647
    (t.latch.err = 0x02 ↔ ∃ i, tooLarge i ∨ pcAtMax i) ∧
    (∀ i, tooLarge i → ∃ a b, aluOperands i s = some (a, b) ∧
      t.latch = ⟨0x02, i.opcode.byte, 0, a, b⟩) ∧
    (∀ i, pcAtMax i → t.latch = ⟨0x02, i.opcode.byte, 0, intMaxWord, 1⟩)

/-- `DivideByZero` is raised only by `DIV` with a zero divisor, whatever the dividend, which the latch
records (60_exceptions.md R154). Derived: the `ERR` code, `FOPC` and `FOPA` are the spec's own decision
D18 (log entry 9). -/
def Obligations.DivideByZeroHasOneOrigin : Prop :=
  ∀ s t : State, MachineInv s → step s = .next t →
    (t.latch.err = 0x04 ↔ ∃ a b d, fetchInstr s = .ok (.div a b d) ∧ s.reg b = 0) ∧
    (∀ a b d, fetchInstr s = .ok (.div a b d) → s.reg b = 0 →
      t.latch = ⟨0x04, 0x0B, 0, s.reg a, 0⟩)

/-- Along every run from a state of the invariant, `ERR` has no bit set exactly while the run has not
faulted and one of bits 0 to 5 exactly when it has, and after a fault nothing changes any more
(10_state.md R20, R21; 60_exceptions.md R158, R162). The layout of `ERR` is the spec's own decision D18
(log entry 9). -/
def Obligations.ErrorFlagsOneHotAndSticky : Prop :=
  ∀ s t : State, MachineInv s → Reaches s t →
    (t.engine ≠ .haltedFault ↔ t.latch.err = 0) ∧
    (t.engine = .haltedFault ↔ ∃ n, n < 6 ∧ t.latch.err = 1#7 <<< n) ∧
    (s.engine = .haltedFault → t = s)

/-- The transitions of `STATE`: to `HaltedNormal` exactly at a committed `END`, to `HaltedFault` exactly
when a fault is latched, `Running` otherwise; a halted core takes no step and only reset makes it run
(10_state.md R17). Derived: reset as the input `rst` is the spec's own decision D20 (log entry 9). -/
def Obligations.EngineStateTransitions : Prop :=
  (∀ s t : State, MachineInv s → step s = .next t →
    s.engine = .running ∧
    (t.engine = .haltedNormal ↔ fetchInstr s = .ok .endRun) ∧
    (t.engine = .haltedFault ↔ t.latch ≠ s.latch)) ∧
  (∀ s : State, s.engine ≠ .running →
    (∀ t, clockStep false s ≠ .next t) ∧
    ∃ t, clockStep true s = .next t ∧ t.engine = .running)

/-! ### Reset (10_state.md, 70_reset_and_hazards.md) -/

/-- At reset and at the start of every run all six registers are 0, every data cell reads 0, and the
engine is `Running` (10_state.md R14, R18, R26). -/
def Obligations.RunStartsWithZeroRegistersAndMemory : Prop :=
  ∀ t : State, (t = State.reset ∨ ∃ s prog, launch s prog = some t) →
    (∀ r, t.reg r = 0) ∧
    (∀ a : Word, 0 ≤ a.toInt ∧ a.toInt < 2048 → memRead t.mem a = .ok 0) ∧
    t.engine = .running

/-- At reset and at the start of every run the latch is clear, `OUT` is empty and the output port
shows nothing: the spec's own decisions D20 and D25 (10_state.md, the reset values of sections 4 and
5; log entry 9). -/
def Obligations.RunStartsWithClearLatchAndOutput : Prop :=
  ∀ t : State, (t = State.reset ∨ ∃ s prog, launch s prog = some t) →
    t.latch.err = 0 ∧ t.latch.fopc = 0 ∧ t.latch.faddr = 0 ∧ t.latch.fopa = 0 ∧
    t.latch.fopb = 0 ∧ t.latch.faultValue = none ∧ t.out = [] ∧ t.ports.outValid = 0

/-- Reset applied in any state gives the reset values and keeps the program: what it leaves depends on
nothing else that went before (70_reset_and_hazards.md, sections 1 and 2). The values of the latch,
`OUT` and `out_valid`, and reset as an input, are the spec's own decisions D20 and D25 (log entry
9). -/
def Obligations.ResetForgetsAllButTheProgram : Prop :=
  ∀ s : State, ∃ t, clockStep true s = .next t ∧
    (∀ r, t.reg r = 0) ∧ (∀ a, t.cell a = 0) ∧ t.engine = .running ∧
    t.latch = ⟨0, 0, 0, 0, 0⟩ ∧ t.out = [] ∧ t.ports.outValid = 0 ∧ t.prog = s.prog ∧
    ∀ s' : State, s'.prog = s.prog → clockStep true s' = .next t

/-- The invariant holds at reset, and at the launch of every program of legal length. The invariant's
canonical memory, its bound on `PLEN` and its output port are log entries 2, 5 and 4. -/
def Obligations.InvariantHoldsAtLaunch : Prop :=
  MachineInv State.reset ∧
  ∀ (s t : State) (prog : List InstrWord), launch s prog = some t → MachineInv t ∧ t.prog = prog

/-! ### Whole-machine rules -/

/-- Every step keeps the invariant: memory canonical, `PLEN` bounded, the latch empty or holding one
coherent fault of a legal origin exactly when the run has faulted, the output port in step with `OUT`.
The latch layout is the spec's own decision D18 (log entry 9); canonical memory, the bound on `PLEN` and
the output port are log entries 2, 5 and 4. -/
def Obligations.StepKeepsTheInvariant : Prop :=
  ∀ s t : State, MachineInv s → step s = .next t → MachineInv t

/-- No step writes a register but `P` and the destination the table under R14 gives its instruction
(10_state.md R12, R14). -/
def Obligations.OnlyTheDestinationRegisterChanges : Prop :=
  ∀ s t : State, step s = .next t → ∀ q, q ≠ .P → t.reg q ≠ s.reg q →
    ∃ i, fetchInstr s = .ok i ∧ destination i = some q

/-- Only STOREA and STORE change the data memory, and only the one cell they address (20_memory.md
R42, R45). -/
def Obligations.OnlyStoresChangeMemory : Prop :=
  ∀ s t : State, step s = .next t → ∀ a, t.cell a ≠ s.cell a →
    ∃ i x, fetchInstr s = .ok i ∧ dataAddress i s = some x ∧ x.toNat = a ∧ a < 2048 ∧
      ((∃ r, i = .storea r x) ∨ ∃ r, i = .store r) ∧ destination i = none

/-- `OUT` is append-only: only a committed PRINT appends, its one value, which the output port shows;
nothing removes or changes an element (10_state.md R24; 44_print_end.md R145). `OUT` as a sequence is
the spec's own decision D24 (log entry 9), the idle port log entry 4. -/
def Obligations.OnlyPrintAppendsToOutput : Prop :=
  (∀ s t : State, step s = .next t →
    (t.out = s.out ∧ t.outPort = none) ∨
    ∃ r, fetchInstr s = .ok (.print r) ∧ t.engine = .running ∧
      t.out = s.out ++ [s.reg r] ∧ t.outPort = some (s.reg r)) ∧
  (∀ s t : State, Reaches s t → ∃ e, t.out = s.out ++ e)

/-- The program cannot be changed: along every run the word at each index is the one loaded, and the
word fetched at an index is the word `PROG` had there at the start (20_memory.md R54). -/
def Obligations.ProgramIsReadOnly : Prop :=
  ∀ s t : State, Reaches s t → t.prog = s.prog ∧
    (∀ n : Nat, t.prog[n]? = s.prog[n]?) ∧
    ∀ w, fetchWord t = .ok w → 0 ≤ (t.reg .P).toInt ∧ s.prog[(t.reg .P).toInt.toNat]? = some w

/-- No instruction reads `ERR`, the context registers, `OUT` or the output port: two states that agree
on registers, memory, engine state and program step alike, emit alike and fault alike (10_state.md
R21, R24, R28; 40_step.md R107). -/
def Obligations.LatchAndOutputAreNeverRead : Prop :=
  ∀ s s' t : State, SameReadableState s s' → step s = .next t →
    ∃ (t' : State) (e : List Word), step s' = .next t' ∧ SameReadableState t t' ∧
      t.out = s.out ++ e ∧ t'.out = s'.out ++ e ∧ t.outPort = t'.outPort ∧
      (t.engine = .haltedFault → t.latch = t'.latch) ∧
      (t.engine ≠ .haltedFault → t.latch = s.latch ∧ t'.latch = s'.latch)

/-! ### The assembler (30_encoding.md) -/

/-- A line the assembler accepts is one instruction, encoded: its tokens are the instruction's mnemonic,
the names of its registers in assembly order and its signed decimal integer, and they fill `op`, `r1`,
`r2`, `r3` and `imm` in this order (30_encoding.md sections 1, 2 and 5). The opcode and register
numbers, upper case and the form of an integer are the spec's own decisions D5, D6, D7 and D23 (log
entry 9); which characters are white space is log entry 6. -/
def Obligations.AssembledLineIsOneInstruction : Prop :=
  allOpcodes.map (fun o => (o.mnemonic, o.byte)) =
    [("LOADA", 0x01), ("LOAD", 0x02), ("LOADI", 0x03), ("STOREA", 0x04), ("STORE", 0x05),
     ("MOVE", 0x06), ("ADDI", 0x07), ("ADD", 0x08), ("SUB", 0x09), ("MUL", 0x0A), ("DIV", 0x0B),
     ("JMP", 0x0C), ("JMPR", 0x0D), ("JZ", 0x0E), ("JLT", 0x0F), ("PRINT", 0x10), ("END", 0x11)] ∧
  ∀ (line : String) (w : InstrWord), assembleLine line = .ok w →
    ∃ i, SpellsInstr (tokensFrom [] line.toList) i ∧ w = encode i ∧ decode w = .ok i ∧
      (tokensFrom [] line.toList).head? = some i.opcode.mnemonic.toList ∧
      (tokensFrom [] line.toList).length = i.opcode.format.operandCount + 1 ∧
      w.extractLsb' 56 8 = i.opcode.byte ∧
      usedRegisterFields i.opcode w = (registerOperands i).map Reg.number ∧
      ∀ v, immediateOperand i = some v → w.extractLsb' 0 32 = v

/-- Every instruction can be written: for each one, with every register and every 32-bit integer, there
is a line whose tokens spell it, and every such line assembles to its encoding (30_encoding.md section
5). The form of an integer is the spec's own decision D23 (log entry 9); which characters are white
space is log entry 6. -/
def Obligations.SpelledInstructionAssembles : Prop :=
  (∀ i : Instr, ∃ line : String, SpellsInstr (tokensFrom [] line.toList) i) ∧
  ∀ (line : String) (i : Instr), SpellsInstr (tokensFrom [] line.toList) i →
    assembleLine line = .ok (encode i)

/-- The four errors of a line, in their order: no mnemonic, the number of operands, a token in a register
position that names no register, a token in an integer position that spells no 32-bit integer; a line
without any of these is accepted (30_encoding.md section 5; the spec's own decisions D10 and D23, log
entry 9). That a line without a token has no mnemonic is the model's choice (log entry 6). -/
def Obligations.AssemblerReportsErrorsInOrder : Prop :=
  ∀ line : String,
    (tokensFrom [] line.toList = [] → assembleLine line = .error .unknownOpcode) ∧
    ∀ (first : Token) (operands : List Token), tokensFrom [] line.toList = first :: operands →
      ((∀ o : Opcode, o.mnemonic.toList ≠ first) → assembleLine line = .error .unknownOpcode) ∧
      ∀ o : Opcode, o.mnemonic.toList = first →
        let registers := operands.take o.format.registerCount
        let integers := operands.drop o.format.registerCount
        let badRegister := ∃ t ∈ registers, ∀ r, registerName r ≠ t
        let badInteger := ∃ t ∈ integers, ∀ v : Word, ¬ SpellsInteger t v.toInt
        (operands.length ≠ o.format.operandCount →
          assembleLine line = .error .wrongOperandCount) ∧
        (operands.length = o.format.operandCount →
          (badRegister → assembleLine line = .error .invalidRegister) ∧
          (¬ badRegister → badInteger → assembleLine line = .error .invalidAddress) ∧
          (¬ badRegister → ¬ badInteger → ∃ w, assembleLine line = .ok w))

/-- Cutting a line at white space: tokens without white space, none of them empty, joined by any
non-empty runs of white space, with any white space before and after, are read back as they are
(30_encoding.md section 5). Which characters are white space is the model's choice (log entry 6). -/
def Obligations.LineIsCutAtWhiteSpace : Prop :=
  ∀ (before : List Char) (parts : List (Token × List Char)),
    (∀ c ∈ before, c.isWhitespace = true) →
    (∀ p ∈ parts, p.1 ≠ [] ∧ (∀ c ∈ p.1, c.isWhitespace = false) ∧
      p.2 ≠ [] ∧ ∀ c ∈ p.2, c.isWhitespace = true) →
    tokensFrom [] (before ++ parts.flatMap fun p => p.1 ++ p.2) = parts.map Prod.fst ∧
    ∀ last : Token, last ≠ [] → (∀ c ∈ last, c.isWhitespace = false) →
      tokensFrom [] (before ++ (parts.flatMap fun p => p.1 ++ p.2) ++ last) =
        parts.map Prod.fst ++ [last]

/-- The assembler accepts a program exactly if it accepts every line, and the word at each index is
that of the line at that position (30_encoding.md section 5). That one bad line refuses the whole
program before the run is the spec's own decisions D10 and D23 (log entry 9). -/
def Obligations.AssemblerIsAllOrNothing : Prop :=
  ∀ lines : List String,
    ((∃ ws, assemble lines = .ok ws) ↔ ∀ l ∈ lines, ∃ w, assembleLine l = .ok w) ∧
    ∀ ws, assemble lines = .ok ws → ws.length = lines.length ∧
      ∀ (n : Nat) (l : String), lines[n]? = some l → ∃ w, ws[n]? = some w ∧ assembleLine l = .ok w
end

