-- ==== Sys2Proof/Laws/Assembler.lean ====
section
/-! SUPPORT. What each reader of a token answers, said once (30_encoding.md R75 to R77). -/

namespace Sys2Proof

open Machine

/-! ### Mnemonics and register names -/

/-- A token read as an opcode is that opcode's mnemonic. -/
theorem opcodeOfToken_eq_some {t : Token} {o : Opcode} (h : opcodeOfToken t = some o) :
    o.mnemonic.toList = t := by
  simpa using List.find?_some h

@[simp] theorem opcodeOfToken_mnemonic (o : Opcode) :
    opcodeOfToken o.mnemonic.toList = some o := by
  cases o <;> decide

@[simp] theorem registerOfToken_registerName (r : Reg) :
    registerOfToken (registerName r) = .ok r.number := by
  cases r <;> rfl

/-- A register token names its register; any other token is the register error. -/
theorem registerOfToken_cases (t : Token) :
    (∃ r, t = registerName r ∧ registerOfToken t = .ok r.number) ∨
    ((∀ r, registerName r ≠ t) ∧ registerOfToken t = .error .invalidRegister) := by
  by_cases h : ∃ r, registerName r = t
  · obtain ⟨r, rfl⟩ := h
    exact .inl ⟨r, rfl, registerOfToken_registerName r⟩
  · simp only [not_exists] at h
    refine .inr ⟨h, ?_⟩
    unfold registerOfToken
    split
    exacts [absurd rfl (h .A), absurd rfl (h .B), absurd rfl (h .C), absurd rfl (h .D),
      absurd rfl (h .P), absurd rfl (h .X), rfl]

/-- Tokens in register positions are all names of registers, in order, or one of them is not and the
answer is the register error (30_encoding.md R76, R78). -/
theorem registersOfTokens_cases (ts : List Token) :
    (∃ rs : List Reg, ts = rs.map registerName ∧
      registersOfTokens ts = .ok (rs.map Reg.number)) ∨
    ((∃ t ∈ ts, ∀ r, registerName r ≠ t) ∧ registersOfTokens ts = .error .invalidRegister) := by
  induction ts with
  | nil => exact .inl ⟨[], rfl, rfl⟩
  | cons t ts ih =>
    simp only [registersOfTokens]
    obtain ⟨r, rfl, h1⟩ | ⟨h1, h2⟩ := registerOfToken_cases t
    · rw [h1]
      obtain ⟨rs, rfl, h2⟩ | ⟨⟨u, hu, hn⟩, h2⟩ := ih
      · rw [h2]
        exact .inl ⟨r :: rs, rfl, rfl⟩
      · rw [h2]
        exact .inr ⟨⟨u, List.mem_cons_of_mem _ hu, hn⟩, rfl⟩
    · rw [h2]
      exact .inr ⟨⟨t, List.mem_cons_self, h1⟩, rfl⟩

/-! ### Integers -/

/-- The value of a digit and of the rest of the digits, the most significant first. -/
theorem foldl_digits (t : Token) (a : Nat) :
    t.foldl (fun n c => 10 * n + (c.toNat - 48)) a =
      Nat.ofDigits 10 (t.map fun c => c.toNat - 48).reverse + 10 ^ t.length * a := by
  induction t generalizing a with
  | nil => simp
  | cons c t ih =>
    rw [List.foldl_cons, ih, List.map_cons, List.reverse_cons, Nat.ofDigits_append]
    simp [Nat.ofDigits_singleton, pow_succ]
    ring

/-- The character of a digit lies between the first and the last digit, and its code gives the digit
back. -/
theorem digitChar_sub :
    ∀ d : Nat, d < 10 →
      (Nat.digitChar d).toNat - 48 = d ∧ '0' ≤ Nat.digitChar d ∧ Nat.digitChar d ≤ '9' := by
  decide

/-- A character between the first and the last digit is the character of a digit. -/
theorem digitChar_toNat {c : Char} (h : '0' ≤ c) (h' : c ≤ '9') :
    c.toNat - 48 < 10 ∧ Nat.digitChar (c.toNat - 48) = c := by
  have h1 : 48 ≤ c.toNat := h
  have h2 : c.toNat ≤ 57 := h'
  refine ⟨by omega, ?_⟩
  obtain ⟨n, hn⟩ : ∃ n, c.toNat = n := ⟨_, rfl⟩
  have hc : c = Char.ofNat n := by rw [← hn, Char.ofNat_toNat]
  rw [hn] at h1 h2 ⊢
  subst hc
  clear hn h h'
  interval_cases n <;> rfl

/-- A token read as a natural number is one or more digits, and the number is their value. -/
theorem naturalOfToken_eq_some {t : Token} {n : Nat} :
    naturalOfToken t = some n ↔
      ∃ ds : List Nat, ds ≠ [] ∧ (∀ d ∈ ds, d < 10) ∧ t = ds.map Nat.digitChar ∧
        n = Nat.ofDigits 10 ds.reverse := by
  unfold naturalOfToken
  constructor
  · intro h
    split_ifs at h with hd
    simp only [Bool.and_eq_true, Bool.not_eq_true', List.isEmpty_eq_false_iff, List.all_eq_true,
      decide_eq_true_eq] at hd
    cases h
    refine ⟨t.map fun c => c.toNat - 48, by simpa using hd.1, ?_, ?_, by simp [foldl_digits]⟩
    · intro d hm
      obtain ⟨c, hc, rfl⟩ := List.mem_map.1 hm
      exact (digitChar_toNat (hd.2 c hc).1 (hd.2 c hc).2).1
    · rw [List.map_map]
      refine (List.map_id t).symm.trans (List.map_congr_left fun c hc => ?_)
      exact (digitChar_toNat (hd.2 c hc).1 (hd.2 c hc).2).2.symm
  · rintro ⟨ds, hne, hlt, rfl, rfl⟩
    rw [if_pos]
    · have hm : (ds.map fun d => (Nat.digitChar d).toNat - 48) = ds :=
        (List.map_congr_left fun d hd => (digitChar_sub d (hlt d hd)).1).trans (List.map_id ds)
      rw [foldl_digits, List.map_map, Function.comp_def, hm]
      simp
    · simp only [Bool.and_eq_true, Bool.not_eq_true', List.isEmpty_eq_false_iff, List.all_eq_true,
        decide_eq_true_eq]
      refine ⟨by simpa using hne, fun c hc => ?_⟩
      obtain ⟨d, hd, rfl⟩ := List.mem_map.1 hc
      exact (digitChar_sub d (hlt d hd)).2

/-- A token read as an integer spells it, and every spelling of an integer is read as it. -/
theorem integerOfToken_eq_some {t : Token} {n : Int} :
    integerOfToken t = some n ↔ SpellsInteger t n := by
  have nodash (ds : List Nat) (h : ∀ d ∈ ds, d < 10) (r : Token) :
      ds.map Nat.digitChar ≠ '-' :: r := by
    intro hc
    cases ds with
    | nil => cases hc
    | cons d ds =>
      have h1 : Nat.digitChar d = '-' := (List.cons.inj hc).1
      have h2 := (digitChar_sub d (h d List.mem_cons_self)).2.1
      rw [h1] at h2
      exact absurd h2 (by decide)
  unfold integerOfToken
  split
  · rename_i digits
    simp only [Option.map_eq_some_iff, naturalOfToken_eq_some]
    constructor
    · rintro ⟨k, ⟨ds, h1, h2, rfl, rfl⟩, rfl⟩
      exact ⟨ds, _, h1, h2, rfl, .inr ⟨rfl, rfl⟩⟩
    · rintro ⟨ds, _, h1, h2, rfl, ⟨h3, -⟩ | ⟨h3, rfl⟩⟩
      · exact absurd h3.symm (nodash ds h2 digits)
      · exact ⟨_, ⟨ds, h1, h2, (List.cons.inj h3).2, rfl⟩, rfl⟩
  · rename_i hnd
    simp only [Option.map_eq_some_iff, naturalOfToken_eq_some]
    constructor
    · rintro ⟨k, ⟨ds, h1, h2, rfl, rfl⟩, rfl⟩
      exact ⟨ds, _, h1, h2, rfl, .inl ⟨rfl, rfl⟩⟩
    · rintro ⟨ds, _, h1, h2, rfl, ⟨h3, rfl⟩ | ⟨h3, -⟩⟩
      · exact ⟨_, ⟨ds, h1, h2, h3, rfl⟩, rfl⟩
      · exact absurd h3 (hnd _)

/-- A token in an integer position is the word whose signed value it spells, or the address error
(30_encoding.md R77). -/
theorem wordOfToken_cases (t : Token) :
    (∃ v : Word, SpellsInteger t v.toInt ∧ wordOfToken t = .ok v) ∨
    ((∀ v : Word, ¬ SpellsInteger t v.toInt) ∧ wordOfToken t = .error .invalidAddress) := by
  unfold wordOfToken
  cases h : integerOfToken t with
  | none =>
    refine .inr ⟨fun v hv => ?_, rfl⟩
    rw [integerOfToken_eq_some.2 hv] at h
    cases h
  | some n =>
    by_cases hr : Config.intMin ≤ n ∧ n ≤ Config.intMax
    · have hv : (BitVec.ofInt 32 n).toInt = n := by
        rw [BitVec.toInt_ofInt]
        simp only [Config.intMin, Config.intMax] at hr
        exact Int.bmod_eq_of_le (by omega) (by omega)
      exact .inl ⟨_, hv.symm ▸ integerOfToken_eq_some.1 h, if_pos hr⟩
    · refine .inr ⟨fun v hv => ?_, if_neg hr⟩
      rw [integerOfToken_eq_some.2 hv] at h
      cases h
      have h1 := BitVec.le_toInt v
      have h2 := BitVec.toInt_lt (x := v)
      simp only [Config.intMin, Config.intMax] at hr
      omega

end Sys2Proof
end

