-- ==== Sys2Proof/Laws/Encoding.lean ====
section
/-! SUPPORT. The bits of an encoded word, field by field, and of the format masks. -/

namespace Sys2Proof

/-! ### Numbers -/

@[simp] theorem ofNumber_number (r : Reg) : Reg.ofNumber r.number = some r := by cases r <;> rfl

@[simp] theorem regOfField_number (op : BitVec 8) (r : Reg) : regOfField op r.number = .ok r := by
  simp [regOfField]

@[simp] theorem ofByte_byte (o : Opcode) : Opcode.ofByte o.byte = some o := by cases o <;> rfl

theorem number_of_ofNumber {n : BitVec 4} {r : Reg} (h : Reg.ofNumber n = some r) :
    r.number = n := by
  have all : ∀ n : BitVec 4, (Reg.ofNumber n).all (fun r => r.number == n) = true := by decide
  simpa [h] using all n

theorem number_of_regOfField {op : BitVec 8} {n : BitVec 4} {r : Reg}
    (h : regOfField op n = .ok r) : r.number = n := by
  unfold regOfField at h
  split at h
  · cases h
    exact number_of_ofNumber ‹_›
  · cases h

theorem byte_of_ofByte {b : BitVec 8} {o : Opcode} (h : Opcode.ofByte b = some o) : o.byte = b := by
  have all : ∀ b : BitVec 8, (Opcode.ofByte b).all (fun o => o.byte == b) = true := by decide
  simpa [h] using all b

/-! ### Packed words -/

/-- Bit `j` of a packed word, read from the field that holds it (30_encoding.md R61). -/
theorem getLsbD_packWord (op : BitVec 8) (r1 r2 r3 : BitVec 4) (imm : Word) (j : Nat) :
    (packWord op r1 r2 r3 imm).getLsbD j =
      if j < 32 then imm.getLsbD j
      else if j < 44 then false
      else if j < 48 then r3.getLsbD (j - 44)
      else if j < 52 then r2.getLsbD (j - 48)
      else if j < 56 then r1.getLsbD (j - 52)
      else op.getLsbD (j - 56) := by
  have below (n : Nat) (v : BitVec n) (i : Nat) (h : n ≤ i) : v.getLsbD i = false :=
    BitVec.getLsbD_of_ge v i h
  simp only [packWord, BitVec.getLsbD_or, BitVec.getLsbD_shiftLeft, BitVec.getLsbD_setWidth]
  split_ifs with h1 h2 h3 h4 h5
  · simp [show j < 56 by omega, show j < 52 by omega, show j < 48 by omega, show j < 44 by omega,
      show j < 64 by omega]
  · simp [show j < 56 by omega, show j < 52 by omega, show j < 48 by omega, show j < 44 by omega,
      below _ imm j (by omega)]
  · simp [show j < 56 by omega, show j < 52 by omega, show j < 48 by omega, show ¬ j < 44 by omega,
      show j < 64 by omega, show j - 44 < 64 by omega, below _ imm j (by omega)]
  · simp [show j < 56 by omega, show j < 52 by omega, show ¬ j < 48 by omega,
      show j < 64 by omega, show j - 48 < 64 by omega, below _ imm j (by omega),
      below _ r3 (j - 44) (by omega)]
  · simp [show j < 56 by omega, show ¬ j < 52 by omega,
      show j < 64 by omega, show j - 52 < 64 by omega, below _ imm j (by omega),
      below _ r3 (j - 44) (by omega), below _ r2 (j - 48) (by omega)]
  · by_cases h : j < 64
    · simp [show ¬ j < 56 by omega, h, show j - 56 < 64 by omega, below _ imm j (by omega),
        below _ r3 (j - 44) (by omega), below _ r2 (j - 48) (by omega),
        below _ r1 (j - 52) (by omega)]
    · simp [h, below _ imm j (by omega), below _ op (j - 56) (by omega)]

@[simp] theorem opField_packWord (op r1 r2 r3 imm) : opField (packWord op r1 r2 r3 imm) = op := by
  ext j hj
  rw [opField, BitVec.getElem_extractLsb', getLsbD_packWord]
  simp [show ¬ 56 + j < 32 by omega, show ¬ 56 + j < 44 by omega, show ¬ 56 + j < 48 by omega,
    show ¬ 56 + j < 52 by omega, hj]

@[simp] theorem r1Field_packWord (op r1 r2 r3 imm) : r1Field (packWord op r1 r2 r3 imm) = r1 := by
  ext j hj
  rw [r1Field, BitVec.getElem_extractLsb', getLsbD_packWord]
  simp [show ¬ 52 + j < 32 by omega, show ¬ 52 + j < 44 by omega, show ¬ 52 + j < 48 by omega,
    show 52 + j < 56 by omega, hj]

@[simp] theorem r2Field_packWord (op r1 r2 r3 imm) : r2Field (packWord op r1 r2 r3 imm) = r2 := by
  ext j hj
  rw [r2Field, BitVec.getElem_extractLsb', getLsbD_packWord]
  simp [show ¬ 48 + j < 32 by omega, show ¬ 48 + j < 44 by omega, show 48 + j < 52 by omega, hj]

@[simp] theorem r3Field_packWord (op r1 r2 r3 imm) : r3Field (packWord op r1 r2 r3 imm) = r3 := by
  ext j hj
  rw [r3Field, BitVec.getElem_extractLsb', getLsbD_packWord]
  simp [show ¬ 44 + j < 32 by omega, show 44 + j < 48 by omega, hj]

@[simp] theorem immField_packWord (op r1 r2 r3 imm) :
    immField (packWord op r1 r2 r3 imm) = imm := by
  ext j hj
  rw [immField, BitVec.getElem_extractLsb', getLsbD_packWord]
  simp [hj]

/-- The bits a format requires to be zero: those of the fields it does not use (30_encoding.md
R65). -/
def Format.spareBit : Format → Nat → Bool
  | .N, j => decide (j < 56)
  | .R, j => decide (j < 52)
  | .RR, j => decide (j < 48)
  | .RRR, j => decide (j < 44)
  | .I, j => decide (32 ≤ j) && decide (j < 56)
  | .RI, j => decide (32 ≤ j) && decide (j < 52)
  | .RRI, j => decide (32 ≤ j) && decide (j < 48)

theorem Format.getLsbD_mbz (f : Format) (j : Nat) (hj : j < 64) :
    f.mbz.getLsbD j = f.spareBit j := by
  revert j
  cases f <;> decide

/-- A word has no bit in a format's mask exactly if each spare bit is 0. -/
theorem and_mbz_eq_zero_iff (w : InstrWord) (f : Format) :
    w &&& f.mbz = 0 ↔ ∀ j < 64, f.spareBit j = true → w.getLsbD j = false := by
  constructor
  · intro h j hj hs
    have hb : (w &&& f.mbz).getLsbD j = false := by rw [h]; simp
    rw [BitVec.getLsbD_and, f.getLsbD_mbz j hj, hs, Bool.and_true] at hb
    exact hb
  · intro h
    apply BitVec.eq_of_getLsbD_eq
    intro j hj
    rw [BitVec.getLsbD_and, f.getLsbD_mbz j hj]
    rcases hs : f.spareBit j with _ | _
    · simp
    · simp [h j hj hs]

end Sys2Proof
end

