-- ==== Sys2Proof/Laws/Memory.lean ====
section
/-! SUPPORT. Every memory operation keeps the canonical form, and the laws of reading and writing
(20_memory.md R44). -/

namespace Sys2Proof.Machine

@[simp] theorem Memory.read_nil (a : Nat) : Memory.read [] a = 0 := rfl

theorem Memory.read_cons (b : Nat) (u : Word) (m : Memory) (a : Nat) :
    Memory.read ((b, u) :: m) a = if a = b then u else Memory.read m a := rfl

/-- The canonical form of a non-empty memory, part by part. -/
theorem Memory.wfFrom_cons (lo b : Nat) (u : Word) (m : Memory) :
    Memory.wfFrom lo ((b, u) :: m) = true ↔
      lo ≤ b ∧ b < Config.memSize ∧ u ≠ 0 ∧ Memory.wfFrom (b + 1) m = true := by
  simp [Memory.wfFrom, and_assoc]

/-- The canonical form from a higher address on is one from any lower address on. -/
theorem Memory.wfFrom_mono {lo lo' : Nat} (h : lo ≤ lo') {m : Memory}
    (hm : Memory.wfFrom lo' m = true) : Memory.wfFrom lo m = true := by
  cases m with
  | nil => rfl
  | cons c m =>
    obtain ⟨b, u⟩ := c
    rw [Memory.wfFrom_cons] at hm ⊢
    exact ⟨h.trans hm.1, hm.2⟩

/-- No address below a canonical memory's first is listed. -/
theorem Memory.read_below {lo a : Nat} {m : Memory} (hm : Memory.wfFrom lo m = true) (h : a < lo) :
    Memory.read m a = 0 := by
  induction m generalizing lo with
  | nil => rfl
  | cons c m ih =>
    obtain ⟨b, u⟩ := c
    rw [Memory.wfFrom_cons] at hm
    rw [Memory.read_cons, if_neg (by omega)]
    exact ih hm.2.2.2 (by omega)

/-- A write at a data address keeps the canonical form, from any bound below the address. -/
theorem Memory.write_wfFrom {lo a : Nat} {m : Memory} (v : Word)
    (hm : Memory.wfFrom lo m = true) (hlo : lo ≤ a) (ha : a < Config.memSize) :
    Memory.wfFrom lo (Memory.write m a v) = true := by
  induction m generalizing lo with
  | nil =>
    unfold Memory.write
    split_ifs with hv
    · rfl
    · exact (Memory.wfFrom_cons _ _ _ _).2 ⟨hlo, ha, hv, rfl⟩
  | cons c m ih =>
    obtain ⟨b, u⟩ := c
    rw [Memory.wfFrom_cons] at hm
    obtain ⟨h1, h2, h3, h4⟩ := hm
    unfold Memory.write
    split_ifs with hlt hv heq hv
    · exact (Memory.wfFrom_cons _ _ _ _).2 ⟨h1, h2, h3, h4⟩
    · exact (Memory.wfFrom_cons _ _ _ _).2
        ⟨hlo, ha, hv, (Memory.wfFrom_cons _ _ _ _).2 ⟨hlt, h2, h3, h4⟩⟩
    · exact Memory.wfFrom_mono (by omega) h4
    · exact (Memory.wfFrom_cons _ _ _ _).2 ⟨hlo, ha, hv, heq ▸ h4⟩
    · exact (Memory.wfFrom_cons _ _ _ _).2 ⟨h1, h2, h3, ih h4 (by omega)⟩

/-- A write at a data address keeps the canonical form. -/
theorem Memory.write_wf {a : Nat} {m : Memory} (v : Word) (hm : Memory.wf m = true)
    (ha : a < Config.memSize) : Memory.wf (Memory.write m a v) = true :=
  Memory.write_wfFrom v hm (Nat.zero_le a) ha

/-- Reading after a write in a canonical memory: the written cell reads the value, every other cell
as before. -/
theorem Memory.read_write_from {lo a : Nat} {m : Memory} (v : Word) (b : Nat)
    (hm : Memory.wfFrom lo m = true) :
    Memory.read (Memory.write m a v) b = if b = a then v else Memory.read m b := by
  induction m generalizing lo with
  | nil =>
    unfold Memory.write
    split_ifs <;> simp_all [Memory.read]
  | cons c m ih =>
    obtain ⟨d, u⟩ := c
    rw [Memory.wfFrom_cons] at hm
    unfold Memory.write
    by_cases hba : b = a
    · subst hba
      rw [if_pos rfl]
      split_ifs with hlt hv heq hv
      · rw [Memory.read_cons, if_neg (by omega), Memory.read_below hm.2.2.2 (by omega), hv]
      · rw [Memory.read_cons, if_pos rfl]
      · rw [Memory.read_below hm.2.2.2 (by omega), hv]
      · rw [Memory.read_cons, if_pos rfl]
      · rw [Memory.read_cons, if_neg heq, ih hm.2.2.2, if_pos rfl]
    · rw [if_neg hba]
      split_ifs with hlt hv heq hv
      · rfl
      · rw [Memory.read_cons, if_neg hba]
      · rw [Memory.read_cons, if_neg (heq ▸ hba)]
      · rw [Memory.read_cons, Memory.read_cons, if_neg hba, if_neg (heq ▸ hba)]
      · rw [Memory.read_cons, Memory.read_cons, ih hm.2.2.2, if_neg hba]

/-- Reading after a write in a canonical memory. -/
theorem Memory.read_write {a : Nat} {m : Memory} (v : Word) (b : Nat) (hm : Memory.wf m = true) :
    Memory.read (Memory.write m a v) b = if b = a then v else Memory.read m b :=
  Memory.read_write_from v b hm

/-- A write leaves every other cell alone, in a canonical memory or not. -/
theorem Memory.read_write_of_ne {a b : Nat} {m : Memory} (v : Word) (h : b ≠ a) :
    Memory.read (Memory.write m a v) b = Memory.read m b := by
  induction m with
  | nil => unfold Memory.write; split_ifs <;> simp [Memory.read, h]
  | cons c m ih =>
    obtain ⟨d, u⟩ := c
    unfold Memory.write
    split_ifs
    · rfl
    · rw [Memory.read_cons, if_neg h]
    · rw [Memory.read_cons, if_neg (by omega)]
    · rw [Memory.read_cons, Memory.read_cons, if_neg h, if_neg (by omega)]
    · rw [Memory.read_cons, Memory.read_cons, ih]

/-- A canonical memory lists nothing but what its reads show: two of them with equal reads are
equal. -/
theorem Memory.ext_from {lo : Nat} {m m' : Memory} (hm : Memory.wfFrom lo m = true)
    (hm' : Memory.wfFrom lo m' = true) (h : ∀ a, Memory.read m a = Memory.read m' a) : m = m' := by
  induction m generalizing lo m' with
  | nil =>
    cases m' with
    | nil => rfl
    | cons c m' =>
      obtain ⟨b, u⟩ := c
      rw [Memory.wfFrom_cons] at hm'
      have := h b
      simp [Memory.read_cons] at this
      exact absurd this.symm hm'.2.2.1
  | cons c m ih =>
    obtain ⟨b, u⟩ := c
    rw [Memory.wfFrom_cons] at hm
    cases m' with
    | nil =>
      have := h b
      simp [Memory.read_cons] at this
      exact absurd this hm.2.2.1
    | cons c' m' =>
      obtain ⟨b', u'⟩ := c'
      rw [Memory.wfFrom_cons] at hm'
      have hb := h b
      have hb' := h b'
      simp only [Memory.read_cons, if_true] at hb hb'
      have heq : b = b' := by
        by_contra hne
        rcases Nat.lt_or_gt_of_ne hne with hlt | hgt
        · rw [if_neg hne, Memory.read_below hm'.2.2.2 (by omega)] at hb
          exact hm.2.2.1 hb
        · rw [if_neg (Ne.symm hne), Memory.read_below hm.2.2.2 (by omega)] at hb'
          exact hm'.2.2.1 hb'.symm
      subst heq
      simp only [if_true] at hb
      subst hb
      rw [ih hm.2.2.2 hm'.2.2.2]
      intro a
      have ha := h a
      simp only [Memory.read_cons] at ha
      by_cases hab : a = b
      · rw [hab, Memory.read_below hm.2.2.2 (by omega), Memory.read_below hm'.2.2.2 (by omega)]
      · simpa [hab] using ha

/-- Canonical memories with equal reads are equal data. -/
theorem Memory.ext_of_wf {m m' : Memory} (hm : Memory.wf m = true) (hm' : Memory.wf m' = true)
    (h : ∀ a, Memory.read m a = Memory.read m' a) : m = m' :=
  Memory.ext_from hm hm' h

end Sys2Proof.Machine
end

