-- ==== Sys2Proof/Laws/State.lean ====
section
/-! SUPPORT. One lemma per field per update of the state, true by unfolding one definition. -/

namespace Sys2Proof.Machine

section
variable (rf : RegFile) (s : State) (op : BitVec 8) (f : FaultValue) (e : Effect) (n v : Word)
  (r q : Reg) (a : Nat)

/-! ### The register file -/

theorem RegFile.get_set : (rf.set r v).get q = if q = r then v else rf.get q := by
  cases r <;> cases q <;> rfl

@[simp] theorem RegFile.get_set_same : (rf.set r v).get r = v := by simp [RegFile.get_set]

theorem RegFile.get_set_of_ne (h : q ≠ r) : (rf.set r v).get q = rf.get q := by
  simp [RegFile.get_set, h]

@[simp] theorem RegFile.get_reset : RegFile.reset.get r = 0 := by cases r <;> rfl

/-! ### Fault entry -/

@[simp] theorem raise_regs : (raise op f s).regs = s.regs := rfl
@[simp] theorem raise_mem : (raise op f s).mem = s.mem := rfl
@[simp] theorem raise_engine : (raise op f s).engine = .haltedFault := rfl
@[simp] theorem raise_latch : (raise op f s).latch = latchOf op f := rfl
@[simp] theorem raise_out : (raise op f s).out = s.out := rfl
@[simp] theorem raise_outPort : (raise op f s).outPort = none := rfl
@[simp] theorem raise_prog : (raise op f s).prog = s.prog := rfl
@[simp] theorem raise_reg : (raise op f s).reg r = s.reg r := rfl
@[simp] theorem raise_cell : (raise op f s).cell a = s.cell a := rfl

/-! ### The flag of each fault kind -/

@[simp] theorem errBit_outOfBounds (x : Word) :
    errWithBit (FaultValue.outOfBounds x).errBit = 0x01 := by
  simp [FaultValue.errBit]; decide
@[simp] theorem errBit_overflow (x y : Word) :
    errWithBit (FaultValue.overflow op x y).errBit = 0x02 := by simp [FaultValue.errBit]; decide
@[simp] theorem errBit_divideByZero (x : Word) :
    errWithBit (FaultValue.divideByZero x).errBit = 0x04 := by simp [FaultValue.errBit]; decide
@[simp] theorem errBit_unknownOpcode : errWithBit (FaultValue.unknownOpcode op).errBit = 0x08 := by
  simp [FaultValue.errBit]; decide
@[simp] theorem errBit_wrongOperandCount :
    errWithBit (FaultValue.wrongOperandCount op).errBit = 0x10 := by
  simp [FaultValue.errBit]; decide
@[simp] theorem errBit_invalidRegister (x : BitVec 4) :
    errWithBit (FaultValue.invalidRegister op x).errBit = 0x20 := by
  simp [FaultValue.errBit]; decide

/-! ### Commit -/

@[simp] theorem commit_regs : (commit e n s).regs = (e.applyRegs s.regs).set .P n := rfl
@[simp] theorem commit_mem : (commit e n s).mem = e.applyMem s.mem := rfl
@[simp] theorem commit_engine :
    (commit e n s).engine = if e.halt then .haltedNormal else s.engine := rfl
@[simp] theorem commit_latch : (commit e n s).latch = s.latch := rfl
@[simp] theorem commit_out : (commit e n s).out = s.out ++ e.emit.toList := rfl
@[simp] theorem commit_outPort : (commit e n s).outPort = e.emit := rfl
@[simp] theorem commit_prog : (commit e n s).prog = s.prog := rfl

@[simp] theorem commit_pc : (commit e n s).reg .P = n := rfl

theorem commit_reg (h : q ≠ .P) : (commit e n s).reg q = (e.applyRegs s.regs).get q := by
  simp [State.reg, RegFile.get_set_of_ne, h]

/-! ### The parts of an effect -/

@[simp] theorem applyRegs_ofReg : (Effect.ofReg r v).applyRegs rf = rf.set r v := rfl
@[simp] theorem applyMem_ofReg (m : Memory) : (Effect.ofReg r v).applyMem m = m := rfl
@[simp] theorem emit_ofReg : (Effect.ofReg r v).emit = none := rfl
@[simp] theorem jump_ofReg : (Effect.ofReg r v).jump = none := rfl
@[simp] theorem halt_ofReg : (Effect.ofReg r v).halt = false := rfl
@[simp] theorem applyRegs_ofJump : (Effect.ofJump v).applyRegs rf = rf := rfl
@[simp] theorem applyMem_ofJump (m : Memory) : (Effect.ofJump v).applyMem m = m := rfl
@[simp] theorem emit_ofJump : (Effect.ofJump v).emit = none := rfl
@[simp] theorem jump_ofJump : (Effect.ofJump v).jump = some v := rfl
@[simp] theorem halt_ofJump : (Effect.ofJump v).halt = false := rfl
@[simp] theorem applyRegs_empty : ({} : Effect).applyRegs rf = rf := rfl
@[simp] theorem applyMem_empty (m : Memory) : ({} : Effect).applyMem m = m := rfl

/-! ### Reset and loading -/

@[simp] theorem applyReset_regs : s.applyReset.regs = RegFile.reset := rfl
@[simp] theorem applyReset_mem : s.applyReset.mem = [] := rfl
@[simp] theorem applyReset_engine : s.applyReset.engine = .running := rfl
@[simp] theorem applyReset_latch : s.applyReset.latch = Latch.clear := rfl
@[simp] theorem applyReset_out : s.applyReset.out = [] := rfl
@[simp] theorem applyReset_outPort : s.applyReset.outPort = none := rfl
@[simp] theorem applyReset_prog : s.applyReset.prog = s.prog := rfl

@[simp] theorem placeAtPc_regs (w : InstrWord) : (placeAtPc s w).regs = s.regs := by
  unfold placeAtPc; split <;> rfl
@[simp] theorem placeAtPc_mem (w : InstrWord) : (placeAtPc s w).mem = s.mem := by
  unfold placeAtPc; split <;> rfl
@[simp] theorem placeAtPc_engine (w : InstrWord) : (placeAtPc s w).engine = s.engine := by
  unfold placeAtPc; split <;> rfl
@[simp] theorem placeAtPc_latch (w : InstrWord) : (placeAtPc s w).latch = s.latch := by
  unfold placeAtPc; split <;> rfl
@[simp] theorem placeAtPc_out (w : InstrWord) : (placeAtPc s w).out = s.out := by
  unfold placeAtPc; split <;> rfl
@[simp] theorem placeAtPc_outPort (w : InstrWord) : (placeAtPc s w).outPort = s.outPort := by
  unfold placeAtPc; split <;> rfl

end

end Sys2Proof.Machine
end

