-- ==== Sys2Proof/Laws/Ops.lean ====
section
/-! SUPPORT. For each shared operation, once, everything it can do: the lemmas that proofs cite
instead of unfolding it. -/

namespace Sys2Proof.Machine

/-! ### Memory controller -/

theorem memRead_of_inData {m : Memory} {a : Word} (h : InData a) :
    memRead m a = .ok (Memory.read m a.toNat) := if_pos h

theorem memRead_of_outside {m : Memory} {a : Word} (h : ¬ InData a) :
    memRead m a = .error (.outOfBounds a) := if_neg h

/-- A signed address in range is the same number unsigned, below 2048. -/
theorem toNat_lt_of_inData {a : Word} (h : InData a) : a.toNat < Config.memSize := by
  obtain ⟨h1, h2⟩ := h
  simp only [Config.memSize] at *
  rw [BitVec.toInt_eq_toNat_cond] at h1 h2
  split at h1 <;> omega

/-- What a memory write answers. -/
theorem memWrite_cases (m : Memory) (a v : Word) :
    (InData a ∧ memWrite m a v = .ok (Memory.write m a.toNat v)) ∨
    (¬ InData a ∧ memWrite m a v = .error (.outOfBounds a)) := by
  by_cases h : InData a
  · exact .inl ⟨h, if_pos h⟩
  · exact .inr ⟨h, if_neg h⟩

/-- What a store's execute phase answers. -/
theorem ofStore_cases (m : Memory) (a v : Word) :
    (InData a ∧ Effect.ofStore m a v = .ok { cellWrite := some (a, v) }) ∨
    (¬ InData a ∧ Effect.ofStore m a v = .error (.outOfBounds a)) := by
  rcases memWrite_cases m a v with ⟨h, hw⟩ | ⟨h, hw⟩
  · exact .inl ⟨h, by rw [Effect.ofStore, hw]; rfl⟩
  · exact .inr ⟨h, by rw [Effect.ofStore, hw]; rfl⟩

/-! ### ALU -/

/-- What the overflow law answers: the exact result as a word whose signed value it is, or the
fault. -/
theorem narrow_cases (op : BitVec 8) (a b : Word) (r : Int) :
    (InRange r ∧ ∃ v : Word, narrow op a b r = .ok v ∧ v.toInt = r) ∨
    (¬ InRange r ∧ narrow op a b r = .error (.overflow op a b)) := by
  by_cases h : InRange r
  · refine .inl ⟨h, BitVec.ofInt 32 r, if_pos h, ?_⟩
    obtain ⟨h1, h2⟩ := h
    simp only [Config.intMin, Config.intMax] at h1 h2
    rw [BitVec.toInt_ofInt]
    apply Int.bmod_eq_of_le <;> omega
  · exact .inr ⟨h, if_neg h⟩

/-! ### Program counter -/

/-- What the incrementer answers. -/
theorem incrementPc_cases (op : BitVec 8) (q : Word) :
    (q.toInt = Config.intMax ∧ incrementPc op q = .error (.overflow op q 1)) ∨
    (q.toInt ≠ Config.intMax ∧ incrementPc op q = .ok (q + 1)) := by
  by_cases h : q.toInt = Config.intMax
  · exact .inl ⟨h, if_pos h⟩
  · exact .inr ⟨h, if_neg h⟩

/-- The word of the program counter at `INT_MAX`. -/
theorem eq_intMax_of_toInt {q : Word} (h : q.toInt = Config.intMax) : q = 0x7FFFFFFF#32 :=
  BitVec.eq_of_toInt_eq (by rw [h]; decide)

/-- Below `INT_MAX` the increment adds one to the signed value. -/
theorem toInt_add_one {q : Word} (h : q.toInt ≠ Config.intMax) : (q + 1).toInt = q.toInt + 1 := by
  have h1 := BitVec.le_toInt q
  have h2 := BitVec.toInt_lt (x := q)
  simp only [Config.intMax] at h
  rw [BitVec.toInt_add, show (1 : Word).toInt = 1 by decide]
  apply Int.bmod_eq_of_le <;> omega

/-- What the program counter update answers. -/
theorem nextPc_cases (op : BitVec 8) (e : Effect) (s : State) :
    (∃ t, e.jump = some t ∧ InProgram s t ∧ nextPc op e s = .ok t) ∨
    (∃ t, e.jump = some t ∧ ¬ InProgram s t ∧ nextPc op e s = .error (.outOfBounds t)) ∨
    (∃ q, e.jump = none ∧ q = (e.applyRegs s.regs).get .P ∧ q.toInt ≠ Config.intMax ∧
      nextPc op e s = .ok (q + 1)) ∨
    (∃ q, e.jump = none ∧ q = (e.applyRegs s.regs).get .P ∧ q.toInt = Config.intMax ∧
      nextPc op e s = .error (.overflow op q 1)) := by
  unfold nextPc
  split
  · next t ht =>
    by_cases h : InProgram s t
    · exact .inl ⟨t, ht, h, if_pos h⟩
    · exact .inr (.inl ⟨t, ht, h, if_neg h⟩)
  · next hn =>
    rcases incrementPc_cases op ((e.applyRegs s.regs).get .P) with ⟨h, he⟩ | ⟨h, he⟩
    · exact .inr (.inr (.inr ⟨_, hn, rfl, h, he⟩))
    · exact .inr (.inr (.inl ⟨_, hn, rfl, h, he⟩))

/-! ### Commit or fault -/

@[simp] theorem finish_error (op : BitVec 8) (f : FaultValue) (s : State) :
    finish op (.error f) s = raise op f s := rfl

/-- A whole effect whose program counter update answers `n` commits. -/
theorem finish_commit {op : BitVec 8} {e : Effect} {s : State} {n : Word}
    (h : nextPc op e s = .ok n) : finish op (.ok e) s = commit e n s := by
  simp [finish, h]

/-- An effect whose program counter update faults leaves only the fault. -/
theorem finish_raise {op : BitVec 8} {e : Effect} {s : State} {f : FaultValue}
    (h : nextPc op e s = .error f) : finish op (.ok e) s = raise op f s := by
  simp [finish, h]

/-- All that the end of a step can do: the execute phase's fault, the program counter's fault, or the
commit of the whole effect. -/
theorem finish_cases (op : BitVec 8) (answer : Except FaultValue Effect) (s : State) :
    (∃ f, answer = .error f ∧ finish op answer s = raise op f s) ∨
    (∃ e f, answer = .ok e ∧ nextPc op e s = .error f ∧ finish op answer s = raise op f s) ∨
    (∃ e n, answer = .ok e ∧ nextPc op e s = .ok n ∧ finish op answer s = commit e n s) := by
  cases answer with
  | error f => exact .inl ⟨f, rfl, rfl⟩
  | ok e =>
    cases h : nextPc op e s with
    | error f => exact .inr (.inl ⟨e, f, rfl, h, finish_raise h⟩)
    | ok n => exact .inr (.inr ⟨e, n, rfl, h, finish_commit h⟩)

/-! ### Fetch -/

/-- What the fetch answers: the word at `P`, or the fault of its bounds check. -/
theorem fetchWord_cases (s : State) :
    (∃ w, InProgram s (s.reg .P) ∧ s.prog[(s.reg .P).toInt.toNat]? = some w ∧
      fetchWord s = .ok w) ∨
    (¬ InProgram s (s.reg .P) ∧ fetchWord s = .error (.outOfBounds (s.reg .P))) := by
  unfold fetchWord InProgram State.plen
  by_cases h : (s.reg .P).toInt < 0
  · exact .inr ⟨by omega, by simp [h]⟩
  · simp only [if_neg h]
    cases hw : s.prog[(s.reg .P).toInt.toNat]? with
    | none =>
      have := List.getElem?_eq_none_iff.1 hw
      exact .inr ⟨by omega, rfl⟩
    | some w =>
      obtain ⟨hlt, -⟩ := List.getElem?_eq_some_iff.1 hw
      exact .inl ⟨w, by omega, rfl, rfl⟩

/-- Fetching and decoding answers an instruction exactly if the word at `P` decodes to it. -/
theorem fetchInstr_eq_ok_iff (s : State) (i : Instr) :
    fetchInstr s = .ok i ↔ ∃ w, fetchWord s = .ok w ∧ decode w = .ok i := by
  unfold fetchInstr
  cases hw : fetchWord s with
  | error f => simp [bind, Except.bind]
  | ok w =>
    cases hd : decode w with
    | error d => simp [bind, Except.bind, decodeWord, hd, Except.mapError]
    | ok j => simp [bind, Except.bind, decodeWord, hd, Except.mapError]

/-! ### The meanings -/

/-- The answer of each instruction's execute phase (40_step.md R95), in one place. -/
def executePhase (i : Instr) (s : State) : Except FaultValue Effect :=
  match i with
  | .loada r a => (cellOperand s a).map (Effect.ofReg r)
  | .load r => (cellOperand s (indirectAddress s)).map (Effect.ofReg r)
  | .loadi r v => .ok (Effect.ofReg r v)
  | .storea r a => Effect.ofStore s.mem a (s.reg r)
  | .store r => Effect.ofStore s.mem (indirectAddress s) (s.reg r)
  | .move a d => .ok (Effect.ofReg d (s.reg a))
  | .addi r v => (aluAdd Opcode.addi.byte (s.reg r) v).map (Effect.ofReg r)
  | .add a b d => (aluAdd Opcode.add.byte (s.reg a) (s.reg b)).map (Effect.ofReg d)
  | .sub a b d => (aluSub Opcode.sub.byte (s.reg a) (s.reg b)).map (Effect.ofReg d)
  | .mul a b d => (aluMul Opcode.mul.byte (s.reg a) (s.reg b)).map (Effect.ofReg d)
  | .div a b d => (aluDiv Opcode.div.byte (s.reg a) (s.reg b)).map (Effect.ofReg d)
  | .jmp t => .ok (Effect.ofJump t)
  | .jmpr r => .ok (Effect.ofJump (s.reg r))
  | .jz r t => .ok (jumpWhen (aluIsZero (s.reg r)) t)
  | .jlt a b t => .ok (jumpWhen (aluLess (s.reg a) (s.reg b)) t)
  | .print r => .ok { emit := some (s.reg r) }
  | .endRun => .ok { halt := true }

/-- Every instruction has a next state: the end of a step on the answer of its execute phase, under
its own opcode. -/
theorem exec_eq_finish (i : Instr) (s : State) :
    exec i s = .next (finish i.opcode.byte (executePhase i s) s) := by
  cases i <;> rfl

/-! ### The step -/

/-- All that a step can do when it has a next state: the core was running, and it took a fetch or
decode fault, or executed the instruction at `P`. -/
theorem step_cases {s t : State} (h : step s = .next t) :
    s.engine = .running ∧
      ((∃ f, fetchInstr s = .error f ∧ t = raise 0 f s) ∨
       (∃ i, fetchInstr s = .ok i ∧ exec i s = .next t)) := by
  unfold step beforeExecute at h
  cases he : s.engine with
  | haltedNormal => simp [he] at h
  | haltedFault => simp [he] at h
  | running =>
    refine ⟨rfl, ?_⟩
    cases hf : fetchInstr s with
    | error f =>
      simp only [he, hf, Host.Outcome.next.injEq] at h
      exact .inl ⟨f, rfl, h.symm⟩
    | ok i =>
      simp only [he, hf] at h
      exact .inr ⟨i, rfl, h⟩

/-- A running core with an instruction at `P` executes it. -/
theorem step_of_fetchInstr {s : State} {i : Instr} (he : s.engine = .running)
    (hf : fetchInstr s = .ok i) : step s = exec i s := by
  simp [step, beforeExecute, he, hf]

/-- A running core with no instruction at `P` takes the fault. -/
theorem step_of_fetchInstr_error {s : State} {f : FaultValue} (he : s.engine = .running)
    (hf : fetchInstr s = .error f) : step s = .next (raise 0 f s) := by
  simp [step, beforeExecute, he, hf]

end Sys2Proof.Machine
end

