-- ==== Sys2Proof/Laws/PerInstr.lean ====
section
/-! SUPPORT. The family of statements about every instruction as syntax: its encoded word carries its
opcode and has no bit its format does not use (30_encoding.md R61, R65). -/

namespace Sys2Proof.Laws

/-- The encoded word's opcode field and spare bits. -/
def EncodingFields.Statement (i : Instr) : Prop :=
  opField (encode i) = i.opcode.byte ∧ encode i &&& i.opcode.format.mbz = 0

/-- A packed word has no bit of a format's mask if the fields the format does not use are zero. -/
theorem packWord_and_mbz (f : Format) (op : BitVec 8) (r1 r2 r3 : BitVec 4) (imm : Word)
    (h1 : f = .N ∨ f = .I → r1 = 0) (h2 : f = .N ∨ f = .I ∨ f = .R ∨ f = .RI → r2 = 0)
    (h3 : f ≠ .RRR → r3 = 0)
    (hi : f = .N ∨ f = .R ∨ f = .RR ∨ f = .RRR → imm = 0) :
    packWord op r1 r2 r3 imm &&& f.mbz = 0 := by
  rw [and_mbz_eq_zero_iff]
  intro j hj hs
  rw [getLsbD_packWord]
  cases f <;> simp [Format.spareBit] at h1 h2 h3 hi hs <;> subst_vars <;> split_ifs <;>
    first | simp | omega

theorem spare_N (op) : packWord op 0 0 0 0 &&& Format.N.mbz = 0 :=
  packWord_and_mbz .N _ _ _ _ _ (by simp) (by simp) (by simp) (by simp)

theorem spare_R (op r1) : packWord op r1 0 0 0 &&& Format.R.mbz = 0 :=
  packWord_and_mbz .R _ _ _ _ _ (by simp) (by simp) (by simp) (by simp)

theorem spare_RR (op r1 r2) : packWord op r1 r2 0 0 &&& Format.RR.mbz = 0 :=
  packWord_and_mbz .RR _ _ _ _ _ (by simp) (by simp) (by simp) (by simp)

theorem spare_RRR (op r1 r2 r3) : packWord op r1 r2 r3 0 &&& Format.RRR.mbz = 0 :=
  packWord_and_mbz .RRR _ _ _ _ _ (by simp) (by simp) (by simp) (by simp)

theorem spare_I (op imm) : packWord op 0 0 0 imm &&& Format.I.mbz = 0 :=
  packWord_and_mbz .I _ _ _ _ _ (by simp) (by simp) (by simp) (by simp)

theorem spare_RI (op r1 imm) : packWord op r1 0 0 imm &&& Format.RI.mbz = 0 :=
  packWord_and_mbz .RI _ _ _ _ _ (by simp) (by simp) (by simp) (by simp)

theorem spare_RRI (op r1 r2 imm) : packWord op r1 r2 0 imm &&& Format.RRI.mbz = 0 :=
  packWord_and_mbz .RRI _ _ _ _ _ (by simp) (by simp) (by simp) (by simp)

theorem EncodingFields.loada (reg : Reg) (addr : Word) : Statement (.loada reg addr) :=
  ⟨opField_packWord _ _ _ _ _, spare_RI _ _ _⟩

theorem EncodingFields.load (reg : Reg) : Statement (.load reg) :=
  ⟨opField_packWord _ _ _ _ _, spare_R _ _⟩

theorem EncodingFields.loadi (reg : Reg) (imm : Word) : Statement (.loadi reg imm) :=
  ⟨opField_packWord _ _ _ _ _, spare_RI _ _ _⟩

theorem EncodingFields.storea (reg : Reg) (addr : Word) : Statement (.storea reg addr) :=
  ⟨opField_packWord _ _ _ _ _, spare_RI _ _ _⟩

theorem EncodingFields.store (reg : Reg) : Statement (.store reg) :=
  ⟨opField_packWord _ _ _ _ _, spare_R _ _⟩

theorem EncodingFields.move (src dst : Reg) : Statement (.move src dst) :=
  ⟨opField_packWord _ _ _ _ _, spare_RR _ _ _⟩

theorem EncodingFields.addi (reg : Reg) (imm : Word) : Statement (.addi reg imm) :=
  ⟨opField_packWord _ _ _ _ _, spare_RI _ _ _⟩

theorem EncodingFields.add (regA regB dst : Reg) : Statement (.add regA regB dst) :=
  ⟨opField_packWord _ _ _ _ _, spare_RRR _ _ _ _⟩

theorem EncodingFields.sub (regA regB dst : Reg) : Statement (.sub regA regB dst) :=
  ⟨opField_packWord _ _ _ _ _, spare_RRR _ _ _ _⟩

theorem EncodingFields.mul (regA regB dst : Reg) : Statement (.mul regA regB dst) :=
  ⟨opField_packWord _ _ _ _ _, spare_RRR _ _ _ _⟩

theorem EncodingFields.div (regA regB dst : Reg) : Statement (.div regA regB dst) :=
  ⟨opField_packWord _ _ _ _ _, spare_RRR _ _ _ _⟩

theorem EncodingFields.jmp (addr : Word) : Statement (.jmp addr) :=
  ⟨opField_packWord _ _ _ _ _, spare_I _ _⟩

theorem EncodingFields.jmpr (reg : Reg) : Statement (.jmpr reg) :=
  ⟨opField_packWord _ _ _ _ _, spare_R _ _⟩

theorem EncodingFields.jz (reg : Reg) (addr : Word) : Statement (.jz reg addr) :=
  ⟨opField_packWord _ _ _ _ _, spare_RI _ _ _⟩

theorem EncodingFields.jlt (regA regB : Reg) (addr : Word) : Statement (.jlt regA regB addr) :=
  ⟨opField_packWord _ _ _ _ _, spare_RRI _ _ _ _⟩

theorem EncodingFields.print (reg : Reg) : Statement (.print reg) :=
  ⟨opField_packWord _ _ _ _ _, spare_R _ _⟩

theorem EncodingFields.endRun : Statement .endRun :=
  ⟨opField_packWord _ _ _ _ _, spare_N _⟩

end Sys2Proof.Laws
end

