-- ==== Sys2Proof/Tests/Slice0.lean ====
section
/-! SUPPORT. The model's own tests, and the witnesses that the hypotheses of the statements can be met.
Every expected word and result is taken from spec/: 30_encoding.md section 4 and 95_test_vectors.md
(the vector's name stands in each comment), or computed by hand from the rule named. -/

namespace Sys2Proof.Tests

open Sys2Proof Sys2Proof.Machine

/-! ### Helpers -/

/-- A running state with the given registers, memory and program. -/
def st (regs : RegFile) (mem : Memory) (prog : List InstrWord) : State :=
  { State.reset with regs := regs, mem := mem, prog := prog }

/-- Eight words of `END`, for tests that need only `PLEN = 8`. -/
def eight : List InstrWord := List.replicate 8 0x1100000000000000

/-- The next state of an outcome, if it has one. -/
def after (o : Host.Outcome State Fault Refusal) : Option State :=
  match o with
  | .next s => some s
  | .fault _ => none
  | .refused _ => none

/-- A register after an outcome. -/
def regAfter (r : Reg) (o : Host.Outcome State Fault Refusal) : Option Word :=
  (after o).map fun s => s.reg r

/-- The latch and `STATE` after an outcome. -/
def latchAfter (o : Host.Outcome State Fault Refusal) : Option (EngineState × Latch) :=
  (after o).map fun s => (s.engine, s.latch)

/-- One step from reset with a program of one word. -/
def stepWord (w : InstrWord) : Host.Outcome State Fault Refusal :=
  step { State.reset with prog := [w] }

/-! ### Well-formedness: each check refuses an ill-formed term -/

theorem test_wf_accepts : wordWellFormed 0x0801200000000000 = true := by decide
theorem test_wf_refuses_opcode_zero : wordWellFormed 0x0000000000000000 = false := by decide
theorem test_wf_refuses_opcode_12 : wordWellFormed 0x1200000000000000 = false := by decide
theorem test_wf_refuses_spare_bit : wordWellFormed 0x0300000100000005 = false := by decide
theorem test_wf_refuses_unused_imm : wordWellFormed 0x1100000000000001 = false := by decide
theorem test_wf_refuses_register_6 : wordWellFormed 0x0360000000000005 = false := by decide
theorem test_wf_refuses_long_program (prog : List InstrWord) (h : prog.length = 2147483648) :
    programWellFormed prog = false :=
  decide_eq_false (by rw [h]; decide)
theorem test_wf_refuses_zero_cell : Memory.wf [(3, 0)] = false := by decide
theorem test_wf_refuses_falling_addresses : Memory.wf [(3, 1), (2, 1)] = false := by decide
theorem test_wf_refuses_cell_2048 : Memory.wf [(2048, 1)] = false := by decide
/-- No two rows of the table select the same word. -/
theorem test_table_rows_disjoint :
    opcodeTable.Pairwise fun a b => a.mask = b.mask ∧ a.pattern ≠ b.pattern := by decide

/-! ### Decoding: one word for every constructor (95_test_vectors.md section 2.1) -/

theorem test_decode_loada : decode 0x0120000000000064 = .ok (.loada .C 100) ∧ encode (.loada .C 100) = 0x0120000000000064 := by decide
theorem test_decode_load : decode 0x0230000000000000 = .ok (.load .D) ∧ encode (.load .D) = 0x0230000000000000 := by decide
theorem test_decode_loadi : decode 0x03100000FFFFFFFD = .ok (.loadi .B (-3)) ∧ encode (.loadi .B (-3)) = 0x03100000FFFFFFFD := by decide
theorem test_decode_storea : decode 0x04500000000007FF = .ok (.storea .X 2047) ∧ encode (.storea .X 2047) = 0x04500000000007FF := by decide
theorem test_decode_store : decode 0x0510000000000000 = .ok (.store .B) ∧ encode (.store .B) = 0x0510000000000000 := by decide
theorem test_decode_move : decode 0x0645000000000000 = .ok (.move .P .X) ∧ encode (.move .P .X) = 0x0645000000000000 := by decide
theorem test_decode_addi : decode 0x07100000FFFFFFFF = .ok (.addi .B (-1)) ∧ encode (.addi .B (-1)) = 0x07100000FFFFFFFF := by decide
theorem test_decode_add : decode 0x0801000000000000 = .ok (.add .A .B .A) ∧ encode (.add .A .B .A) = 0x0801000000000000 := by decide
theorem test_decode_sub : decode 0x0903300000000000 = .ok (.sub .A .D .D) ∧ encode (.sub .A .D .D) = 0x0903300000000000 := by decide
theorem test_decode_mul : decode 0x0A23500000000000 = .ok (.mul .C .D .X) ∧ encode (.mul .C .D .X) = 0x0A23500000000000 := by decide
theorem test_decode_div : decode 0x0B01200000000000 = .ok (.div .A .B .C) ∧ encode (.div .A .B .C) = 0x0B01200000000000 := by decide
theorem test_decode_jmp : decode 0x0C00000000000006 = .ok (.jmp 6) ∧ encode (.jmp 6) = 0x0C00000000000006 := by decide
theorem test_decode_jmpr : decode 0x0D50000000000000 = .ok (.jmpr .X) ∧ encode (.jmpr .X) = 0x0D50000000000000 := by decide
theorem test_decode_jz : decode 0x0E10000000000006 = .ok (.jz .B 6) ∧ encode (.jz .B 6) = 0x0E10000000000006 := by decide
theorem test_decode_jlt : decode 0x0F3200000000000B = .ok (.jlt .D .C 11) ∧ encode (.jlt .D .C 11) = 0x0F3200000000000B := by decide
theorem test_decode_print : decode 0x1040000000000000 = .ok (.print .P) ∧ encode (.print .P) = 0x1040000000000000 := by decide
theorem test_decode_endRun : decode 0x1100000000000000 = .ok (.endRun) ∧ encode (.endRun) = 0x1100000000000000 := by decide

/-- The decoder's three refusals, and their order (95_test_vectors.md section 2.1). -/
theorem test_decode_refusals :
    decode 0xFFFFFFFFFFFFFFFF = .error (.unknownOpcode 0xFF) ∧
    decode 0x0201000000000000 = .error (.wrongOperandCount 0x02) ∧
    decode 0x0260000000000001 = .error (.wrongOperandCount 0x02) ∧
    decode 0x08F7200000000000 = .error (.invalidRegister 0x08 15) := by decide

theorem test_decodeTableWord :
    decodeTableWord 64 0x0C00000000000000 = some (.jmp 0) ∧ decodeTableWord 64 0 = none := by decide

/-! ### Loads, stores and moves (95_test_vectors.md section 2.2) -/

/-- 41_load_store_move.md R110, the example. -/
theorem test_loada :
    regAfter .C (exec (.loada .C 100) (st ⟨0, 0, 0, 0, 0, 0⟩ [(100, 7)] eight)) = some (7) := by decide
/-- M3. -/
theorem test_loada_faults :
    latchAfter (exec (.loada .A 2048) (st ⟨0, 0, 0, 0, 0, 0⟩ [] eight)) = some (.haltedFault, ⟨0x01, 0x01, 2048, 0, 0⟩) := by decide
/-- M5. -/
theorem test_load :
    regAfter .D (exec (.load .D) (st ⟨101, 0, 0, 0, 0, 0⟩ [(101, -3)] eight)) = some (-3) := by decide
/-- M6: the address is read before the write. -/
theorem test_load_into_A :
    regAfter .A (exec (.load .A) (st ⟨7, 0, 0, 0, 0, 0⟩ [(7, 40)] eight)) = some (40) := by decide
/-- M10: continues at the written value plus one. -/
theorem test_loadi_to_P :
    regAfter .P (exec (.loadi .P (-1)) (st ⟨0, 0, 0, 0, 5, 0⟩ [] eight)) = some (0) := by decide
/-- M11. -/
theorem test_loadi_P_overflows :
    latchAfter (exec (.loadi .P 2147483647) (st ⟨0, 0, 0, 0, 0, 0⟩ [] eight)) = some (.haltedFault, ⟨0x02, 0x03, 0, 2147483647, 1⟩) := by decide
/-- M12. -/
theorem test_storea :
    (after (exec (.storea .X 2047) (st ⟨0, 0, 0, 0, 0, -21⟩ [] eight))).map (fun s => s.cell 2047) = some (-21) := by decide
/-- M17. -/
theorem test_storea_own_index :
    (after (exec (.storea .P 3) (st ⟨0, 0, 0, 0, 9, 0⟩ [] eight))).map (fun s => s.cell 3) = some (9) := by decide
/-- M14. -/
theorem test_store :
    (after (exec (.store .B) (st ⟨100, 7, 0, 0, 0, 0⟩ [] eight))).map (fun s => s.cell 100) = some (7) := by decide
/-- M16: the address is signed. -/
theorem test_store_faults :
    latchAfter (exec (.store .A) (st ⟨-1, 0, 0, 0, 0, 0⟩ [] eight)) = some (.haltedFault, ⟨0x01, 0x05, -1, 0, 0⟩) := by decide
/-- M18: source first. -/
theorem test_move :
    regAfter .B (exec (.move .A .B) (st ⟨4, 8, 0, 0, 0, 0⟩ [] eight)) = some (4) := by decide
/-- M19. -/
theorem test_move_from_P :
    regAfter .X (exec (.move .P .X) (st ⟨0, 0, 0, 0, 1, 0⟩ [] eight)) = some (1) := by decide

/-! ### Arithmetic (95_test_vectors.md section 2.3) -/

/-- A48. -/
theorem test_addi :
    regAfter .A (exec (.addi .A (-2147483648)) (st ⟨2147483647, 0, 0, 0, 0, 0⟩ [] eight)) = some (-1) := by decide
/-- A46. -/
theorem test_addi_overflows :
    latchAfter (exec (.addi .A 1) (st ⟨2147483647, 0, 0, 0, 0, 0⟩ [] eight)) = some (.haltedFault, ⟨0x02, 0x07, 0, 2147483647, 1⟩) := by decide
/-- A6. -/
theorem test_add :
    regAfter .C (exec (.add .A .B .C) (st ⟨-1073741824, -1073741824, 0, 0, 0, 0⟩ [] eight)) = some (-2147483648) := by decide
/-- A3. -/
theorem test_add_overflows :
    latchAfter (exec (.add .A .B .C) (st ⟨-2147483648, -1, 0, 0, 0, 0⟩ [] eight)) = some (.haltedFault, ⟨0x02, 0x08, 0, -2147483648, -1⟩) := by decide
/-- A10. -/
theorem test_sub :
    regAfter .C (exec (.sub .A .B .C) (st ⟨-1, -2147483648, 0, 0, 0, 0⟩ [] eight)) = some (2147483647) := by decide
/-- A8. -/
theorem test_sub_overflows :
    latchAfter (exec (.sub .A .B .C) (st ⟨0, -2147483648, 0, 0, 0, 0⟩ [] eight)) = some (.haltedFault, ⟨0x02, 0x09, 0, 0, -2147483648⟩) := by decide
/-- A20. -/
theorem test_mul :
    regAfter .C (exec (.mul .A .B .C) (st ⟨65536, -32768, 0, 0, 0, 0⟩ [] eight)) = some (-2147483648) := by decide
/-- A18. -/
theorem test_mul_overflows :
    latchAfter (exec (.mul .A .B .C) (st ⟨46341, 46341, 0, 0, 0, 0⟩ [] eight)) = some (.haltedFault, ⟨0x02, 0x0A, 0, 46341, 46341⟩) := by decide
/-- A22: truncated, not floored. -/
theorem test_div :
    regAfter .C (exec (.div .A .B .C) (st ⟨-7, 2, 0, 0, 0, 0⟩ [] eight)) = some (-3) := by decide
/-- A28, A31. -/
theorem test_div_faults :
    latchAfter (exec (.div .A .B .C) (st ⟨5, 0, 0, 0, 0, 0⟩ [] eight)) = some (.haltedFault, ⟨0x04, 0x0B, 0, 5, 0⟩) ∧
    latchAfter (exec (.div .A .B .C) (st ⟨-2147483648, -1, 0, 0, 0, 0⟩ [] eight)) = some (.haltedFault, ⟨0x02, 0x0B, 0, -2147483648, -1⟩) := by decide

/-! ### Jumps (95_test_vectors.md section 2.4) -/

/-- J2. -/
theorem test_jmp :
    regAfter .P (exec (.jmp 7) (st ⟨0, 0, 0, 0, 0, 0⟩ [] eight)) = some (7) := by decide
/-- J3. -/
theorem test_jmp_faults :
    latchAfter (exec (.jmp 8) (st ⟨0, 0, 0, 0, 0, 0⟩ [] eight)) = some (.haltedFault, ⟨0x01, 0x0C, 8, 0, 0⟩) := by decide
/-- J6. -/
theorem test_jmpr :
    regAfter .P (exec (.jmpr .X) (st ⟨0, 0, 0, 0, 7, 4⟩ [] eight)) = some (4) := by decide
/-- J7. -/
theorem test_jmpr_faults :
    latchAfter (exec (.jmpr .X) (st ⟨0, 0, 0, 0, 7, 8⟩ [] eight)) = some (.haltedFault, ⟨0x01, 0x0D, 8, 0, 0⟩) := by decide
/-- J9, J12. -/
theorem test_jz :
    regAfter .P (exec (.jz .B 6) (st ⟨0, 0, 0, 0, 2, 0⟩ [] eight)) = some (6) ∧
    regAfter .P (exec (.jz .B 99) (st ⟨0, 1, 0, 0, 2, 0⟩ [] eight)) = some (3) := by decide
/-- J13. -/
theorem test_jz_faults :
    latchAfter (exec (.jz .B 99) (st ⟨0, 0, 0, 0, 2, 0⟩ [] eight)) = some (.haltedFault, ⟨0x01, 0x0E, 99, 0, 0⟩) := by decide
/-- J19, J18. -/
theorem test_jlt :
    regAfter .P (exec (.jlt .A .B 4) (st ⟨-2147483648, 2147483647, 0, 0, 1, 0⟩ [] eight)) = some (4) ∧
    regAfter .P (exec (.jlt .A .B 4) (st ⟨7, 7, 0, 0, 1, 0⟩ [] eight)) = some (2) := by decide
/-- J22. -/
theorem test_jlt_faults :
    latchAfter (exec (.jlt .A .B 8) (st ⟨0, 1, 0, 0, 1, 0⟩ [] eight)) = some (.haltedFault, ⟨0x01, 0x0F, 8, 0, 0⟩) := by decide

/-! ### PRINT, END, fetch, reset (95_test_vectors.md section 2.5) -/

/-- E1. -/
theorem test_print :
    (after (exec (.print .C) (st ⟨0, 0, 5, 0, 3, 0⟩ [] eight))).map (fun s => (s.out, s.reg .P)) = some ([5], 4) := by decide
/-- E3. -/
theorem test_print_ports :
    (after (exec (.print .P) (st ⟨0, 0, 0, 0, 6, 0⟩ [] eight))).map (fun s => (s.ports.outValid, s.ports.outData)) =
      some (1, some 6) := by decide
/-- E4. -/
theorem test_end :
    (after (exec .endRun (st ⟨0, 0, 0, 0, 4, 0⟩ [] eight))).map (fun s => (s.engine, s.reg .P)) =
      some (.haltedNormal, 5) := by decide
/-- E5. -/
theorem test_end_no_step_after :
    (after (exec .endRun (st ⟨0, 0, 0, 0, 4, 0⟩ [] eight))).map (fun s => (after (step s)).isNone) = some true := by decide
/-- E6. -/
theorem test_fetch_empty_program :
    latchAfter (step State.reset) = some (.haltedFault, ⟨0x01, 0x00, 0, 0, 0⟩) := by decide
/-- E8. -/
theorem test_fetch_negative :
    latchAfter (step (st ⟨0, 0, 0, 0, -1, 0⟩ [] eight)) = some (.haltedFault, ⟨0x01, 0x00, -1, 0, 0⟩) := by decide
theorem test_step_unknown_opcode :
    latchAfter (stepWord 0x1200000000000000) = some (.haltedFault, ⟨0x08, 0x12, 0, 0, 0⟩) := by decide
theorem test_step_operand_count :
    latchAfter (stepWord 0x0801200000000001) = some (.haltedFault, ⟨0x10, 0x08, 0, 0, 0⟩) := by decide
theorem test_step_bad_register :
    latchAfter (stepWord 0x08F7200000000000) = some (.haltedFault, ⟨0x20, 0x08, 15, 0, 0⟩) := by decide
theorem test_withFetchWord_runs :
    step (State.reset.withFetchWord 64 0x0300000000000005) =
      exec (.loadi .A 5) (State.reset.withFetchWord 64 0x0300000000000005) := by rfl
theorem test_withFetchWord_pads :
    (State.withFetchWord (st ⟨0, 0, 0, 0, 9, 0⟩ [] eight) 64 0x1100000000000000).prog.length = 10 := by decide
/-- 10_state.md R16. -/
theorem test_state_codes :
    EngineState.running.code = 0 ∧ EngineState.haltedNormal.code = 1 ∧ EngineState.haltedFault.code = 2 := by decide
/-- S3, as the host observes it (10_state.md R33). -/
theorem test_observation_of_fault :
    (after (stepWord 0x0100000000000800)).map State.observation =
      some ⟨[], .haltedFault, some (.outOfBounds 2048)⟩ := by decide

/-! ### The assembler and the byte image -/

/-- Program S1 (95_test_vectors.md section 1.2). -/
theorem test_assemble_S1 :
    assemble ["LOADI A 5", "LOADI B 0", "ADD A B C", "PRINT C", "END"] =
      .ok [0x0300000000000005, 0x0310000000000000, 0x0801200000000000, 0x1020000000000000,
        0x1100000000000000] := by decide
/-- The four errors of 30_encoding.md R78, and that lower case and an integer past the range are
refused (R76, R77). -/
theorem test_assemble_errors :
    assembleLine "loadi A 5" = .error .unknownOpcode ∧
    assembleLine "ADD A B" = .error .wrongOperandCount ∧
    assembleLine "LOADI a 5" = .error .invalidRegister ∧
    assembleLine "JMP 2147483648" = .error .invalidAddress ∧
    assembleLine "JMP -2147483648" = .ok 0x0C00000080000000 := by decide
theorem test_image_big_endian :
    (imageOfProgram [0x0C00000000000006]).head? = some 0x0C ∧
    programOfImage (imageOfProgram [0x0C00000000000006]) = some [0x0C00000000000006] ∧
    programOfImage [1, 2, 3] = none := by decide

/-! ### Witnesses: states and operands that meet the hypotheses of the statements, each clause at a
boundary of its range -/

theorem witness_LoadaLoadsTheAddressedCell :
    (let s := st ⟨0, 0, 0, 0, 7, 0⟩ [(2047, 2147483647)] eight;
      (0 ≤ (2047 : Word).toInt ∧ (2047 : Word).toInt < 2048) ∧
      pcBeforeIncrement .X (s.cell 2047).toInt s ≠ 2147483647 ∧
      pcBeforeIncrement .P (s.cell 2047).toInt s = 2147483647 ∧
      ¬ (0 ≤ (2048 : Word).toInt ∧ (2048 : Word).toInt < 2048) ∧
      (State.reset.mem = [])) := by decide
theorem witness_LoadLoadsTheCellAddressedByA :
    (let s := st ⟨2047, 0, 0, 0, 7, 0⟩ [(2047, 2147483647)] eight;
      (0 ≤ (s.reg .A).toInt ∧ (s.reg .A).toInt < 2048) ∧
      pcBeforeIncrement .A (s.cell 2047).toInt s ≠ 2147483647 ∧
      pcBeforeIncrement .P (s.cell (s.reg .A).toNat).toInt s = 2147483647) ∧
    (let s := st ⟨-1, 0, 0, 0, 7, 0⟩ [] eight; ¬ (0 ≤ (s.reg .A).toInt ∧ (s.reg .A).toInt < 2048)) := by decide
theorem witness_LoadiLoadsTheImmediate :
    pcBeforeIncrement .A 2147483647 (st ⟨0, 0, 0, 0, 7, 0⟩ [] eight) ≠ 2147483647 ∧
    pcBeforeIncrement .P (2147483647 : Word).toInt (st ⟨0, 0, 0, 0, 7, 0⟩ [] eight) = 2147483647 := by decide
theorem witness_StoreaStoresToTheAddressedCell :
    Memory.wf (st ⟨0, 0, 0, 0, 7, 0⟩ [] eight).mem = true ∧ (0 ≤ (2047 : Word).toInt ∧ (2047 : Word).toInt < 2048) ∧
    ((st ⟨0, 0, 0, 0, 7, 0⟩ [] eight).reg .P).toInt ≠ 2147483647 ∧ ((st ⟨0, 0, 0, 0, 2147483647, 0⟩ [] eight).reg .P).toInt = 2147483647 ∧
    ¬ (0 ≤ (-1 : Word).toInt ∧ (-1 : Word).toInt < 2048) := by decide
theorem witness_StoreStoresToTheCellAddressedByA :
    Memory.wf (st ⟨2047, 0, 0, 0, 0, 0⟩ [] eight).mem = true ∧
    (0 ≤ (indirectAddress (st ⟨2047, 0, 0, 0, 0, 0⟩ [] eight)).toInt ∧ (indirectAddress (st ⟨2047, 0, 0, 0, 0, 0⟩ [] eight)).toInt < 2048) ∧
    ((st ⟨2047, 0, 0, 0, 0, 0⟩ [] eight).reg .P).toInt ≠ 2147483647 ∧ ((st ⟨2047, 0, 0, 0, 2147483647, 0⟩ [] eight).reg .P).toInt = 2147483647 ∧
    ¬ (0 ≤ (indirectAddress (st ⟨2048, 0, 0, 0, 0, 0⟩ [] eight)).toInt ∧ (indirectAddress (st ⟨2048, 0, 0, 0, 0, 0⟩ [] eight)).toInt < 2048) := by decide
theorem witness_MoveCopiesFirstToSecond :
    pcBeforeIncrement .A ((st ⟨2147483647, 0, 0, 0, 0, 0⟩ [] eight).reg .A).toInt (st ⟨2147483647, 0, 0, 0, 0, 0⟩ [] eight) ≠ 2147483647 ∧
    pcBeforeIncrement .P ((st ⟨2147483647, 0, 0, 0, 0, 0⟩ [] eight).reg .A).toInt (st ⟨2147483647, 0, 0, 0, 0, 0⟩ [] eight) = 2147483647 := by decide
theorem witness_AddiAddsTheImmediate :
    (let s := (st ⟨2147483646, 0, 0, 0, 0, 0⟩ [] eight);
      (-2147483648 ≤ (s.reg .A).toInt + (1 : Word).toInt ∧ (s.reg .A).toInt + (1 : Word).toInt ≤ 2147483647) ∧
      pcBeforeIncrement .A ((s.reg .A).toInt + (1 : Word).toInt) s ≠ 2147483647 ∧
      ¬ (s.reg .A).toInt + (2 : Word).toInt ≤ 2147483647) ∧
    (let s := (st ⟨0, 0, 0, 0, 2147483646, 0⟩ [] eight); pcBeforeIncrement .P ((s.reg .P).toInt + (1 : Word).toInt) s = 2147483647) := by decide
theorem witness_AddAddsTwoRegisters :
    (let s := (st ⟨2147483646, 1, 0, 0, 0, 0⟩ [] eight);
      (-2147483648 ≤ (s.reg .A).toInt + (s.reg .B).toInt ∧ (s.reg .A).toInt + (s.reg .B).toInt ≤ 2147483647) ∧
      pcBeforeIncrement .C ((s.reg .A).toInt + (s.reg .B).toInt) s ≠ 2147483647 ∧
      pcBeforeIncrement .P ((s.reg .A).toInt + (s.reg .B).toInt) s = 2147483647) ∧
    (let s := (st ⟨2147483647, 1, 0, 0, 0, 0⟩ [] eight); ¬ (s.reg .A).toInt + (s.reg .B).toInt ≤ 2147483647) := by decide
theorem witness_SubSubtractsTwoRegisters :
    (let s := (st ⟨2147483646, -1, 0, 0, 0, 0⟩ [] eight);
      (-2147483648 ≤ (s.reg .A).toInt - (s.reg .B).toInt ∧ (s.reg .A).toInt - (s.reg .B).toInt ≤ 2147483647) ∧
      pcBeforeIncrement .C ((s.reg .A).toInt - (s.reg .B).toInt) s ≠ 2147483647 ∧
      pcBeforeIncrement .P ((s.reg .A).toInt - (s.reg .B).toInt) s = 2147483647) ∧
    (let s := (st ⟨2147483647, -1, 0, 0, 0, 0⟩ [] eight); ¬ (s.reg .A).toInt - (s.reg .B).toInt ≤ 2147483647) := by decide
theorem witness_MulMultipliesTwoRegisters :
    (let s := (st ⟨2147483647, 1, 0, 0, 0, 0⟩ [] eight);
      (-2147483648 ≤ (s.reg .A).toInt * (s.reg .B).toInt ∧ (s.reg .A).toInt * (s.reg .B).toInt ≤ 2147483647) ∧
      pcBeforeIncrement .C ((s.reg .A).toInt * (s.reg .B).toInt) s ≠ 2147483647 ∧
      pcBeforeIncrement .P ((s.reg .A).toInt * (s.reg .B).toInt) s = 2147483647) ∧
    (let s := (st ⟨-2147483648, -1, 0, 0, 0, 0⟩ [] eight); ¬ (s.reg .A).toInt * (s.reg .B).toInt ≤ 2147483647) := by decide
theorem witness_DivDividesTwoRegisters :
    (let s := (st ⟨-2147483647, -1, 0, 0, 0, 0⟩ [] eight);
      (s.reg .B).toInt ≠ 0 ∧ ¬ ((s.reg .A).toInt = -2147483648 ∧ (s.reg .B).toInt = -1) ∧
      pcBeforeIncrement .C ((s.reg .A).toInt.tdiv (s.reg .B).toInt) s ≠ 2147483647 ∧
      pcBeforeIncrement .P ((s.reg .A).toInt.tdiv (s.reg .B).toInt) s = 2147483647) ∧
    (let s := (st ⟨-2147483648, -1, 0, 0, 0, 0⟩ [] eight); (s.reg .A).toInt = -2147483648 ∧ (s.reg .B).toInt = -1) ∧
    (let s := (st ⟨-2147483648, 0, 0, 0, 0, 0⟩ [] eight); (s.reg .B).toInt = 0) := by decide
theorem witness_JmpJumpsToTheImmediate :
    (0 ≤ (7 : Word).toInt ∧ (7 : Word).toInt < (st ⟨0, 0, 0, 0, 0, 0⟩ [] eight).prog.length) ∧
    ¬ (0 ≤ (8 : Word).toInt ∧ (8 : Word).toInt < (st ⟨0, 0, 0, 0, 0, 0⟩ [] eight).prog.length) := by decide
theorem witness_JmprJumpsToTheRegister :
    (0 ≤ ((st ⟨0, 0, 0, 0, 0, 7⟩ [] eight).reg .X).toInt ∧ ((st ⟨0, 0, 0, 0, 0, 7⟩ [] eight).reg .X).toInt < (st ⟨0, 0, 0, 0, 0, 7⟩ [] eight).prog.length) ∧
    ¬ (0 ≤ ((st ⟨0, 0, 0, 0, 0, 8⟩ [] eight).reg .X).toInt ∧ ((st ⟨0, 0, 0, 0, 0, 8⟩ [] eight).reg .X).toInt < (st ⟨0, 0, 0, 0, 0, 8⟩ [] eight).prog.length) := by decide
theorem witness_JzJumpsIfZero :
    (st ⟨0, 0, 0, 0, 0, 0⟩ [] eight).reg .B = 0 ∧ (0 ≤ (7 : Word).toInt ∧ (7 : Word).toInt < (st ⟨0, 0, 0, 0, 0, 0⟩ [] eight).prog.length) ∧
    ¬ (0 ≤ (8 : Word).toInt ∧ (8 : Word).toInt < (st ⟨0, 0, 0, 0, 0, 0⟩ [] eight).prog.length) ∧
    ((st ⟨0, -2147483648, 0, 0, 0, 0⟩ [] eight).reg .B ≠ 0 ∧ ((st ⟨0, -2147483648, 0, 0, 0, 0⟩ [] eight).reg .P).toInt ≠ 2147483647) ∧
    ((st ⟨0, 1, 0, 0, 2147483647, 0⟩ [] eight).reg .B ≠ 0 ∧ ((st ⟨0, 1, 0, 0, 2147483647, 0⟩ [] eight).reg .P).toInt = 2147483647) := by decide
theorem witness_JltJumpsIfLess :
    (let s := (st ⟨-2147483648, 2147483647, 0, 0, 0, 0⟩ [] eight); (s.reg .A).toInt < (s.reg .B).toInt ∧
      (0 ≤ (7 : Word).toInt ∧ (7 : Word).toInt < s.prog.length) ∧
      ¬ (0 ≤ (8 : Word).toInt ∧ (8 : Word).toInt < s.prog.length)) ∧
    (let s := (st ⟨7, 7, 0, 0, 0, 0⟩ [] eight); ¬ (s.reg .A).toInt < (s.reg .B).toInt ∧ (s.reg .P).toInt ≠ 2147483647) ∧
    (let s := (st ⟨7, 7, 0, 0, 2147483647, 0⟩ [] eight); ¬ (s.reg .A).toInt < (s.reg .B).toInt ∧ (s.reg .P).toInt = 2147483647) := by decide
theorem witness_PrintEmitsTheRegister :
    ((st ⟨0, 0, 0, 0, 2147483646, 0⟩ [] eight).reg .P).toInt ≠ 2147483647 ∧ ((st ⟨0, 0, 0, 0, 2147483647, 0⟩ [] eight).reg .P).toInt = 2147483647 := by decide
theorem witness_EndHaltsNormally :
    ((st ⟨0, 0, 0, 0, 7, 0⟩ [] eight).reg .P).toInt ≠ 2147483647 ∧ ((st ⟨0, 0, 0, 0, 2147483647, 0⟩ [] eight).reg .P).toInt = 2147483647 := by decide
/-- Also for `DecoderAgreesWithOpcodeTable`: a row accepts its worked word. -/
theorem witness_DecodedWordIsTheEncoding :
    decode 0x0F3200000000000B = .ok (.jlt .D .C 11) ∧
    (opcodeTable.any fun row => row.accepts 0x0F3200000000000B) = true := by decide
/-- A running state whose program is one word. -/
def one (w : InstrWord) : State := { State.reset with prog := [w] }

theorem witness_IllegalWordsFaultInOrder :
    ((one 0xFF00000000000000).engine = .running ∧ 0 ≤ ((one 0xFF00000000000000).reg .P).toInt ∧
      (one 0x1200000000000000).prog[((one 0x1200000000000000).reg .P).toInt.toNat]? = some 0x1200000000000000 ∧
      0x12 ≤ ((0x1200000000000000 : InstrWord).extractLsb' 56 8).toNat ∧
      ((0 : InstrWord).extractLsb' 56 8).toNat = 0) ∧
    ((0x1100000000000001 : InstrWord).extractLsb' 56 8 = Opcode.endRun.byte ∧
      (0x1100000000000001 : InstrWord) &&& Opcode.endRun.format.mbz ≠ 0) ∧
    ((0x0607000000000000 : InstrWord).extractLsb' 56 8 = Opcode.move.byte ∧
      (0x0607000000000000 : InstrWord) &&& Opcode.move.format.mbz = 0 ∧
      (usedRegisterFields .move 0x0606000000000000).find? (fun k => decide (6 ≤ k.toNat)) = some 6 ∧
      (usedRegisterFields .move 0x0655000000000000).find? (fun k => decide (6 ≤ k.toNat)) = none) := by decide
theorem witness_ByteImageReadsBack :
    ([0x0C00000000000006, 0x1100000000000000] : List InstrWord)[1]? = some 0x1100000000000000 := by decide
theorem witness_MemoryControllerRoundTrip :
    Memory.wf [(0, 1), (2047, 5)] = true ∧ (0 ≤ (2047 : Word).toInt ∧ (2047 : Word).toInt < 2048) ∧
    ¬ (0 ≤ (2048 : Word).toInt ∧ (2048 : Word).toInt < 2048) ∧ (0 : Word) ≠ 2047 := by decide
theorem witness_AluIsExactOrOverflows :
    (-2147483648 ≤ (2147483647 : Word).toInt + (0 : Word).toInt ∧ (2147483647 : Word).toInt + (0 : Word).toInt ≤ 2147483647) ∧
    ¬ ((2147483647 : Word).toInt + (1 : Word).toInt ≤ 2147483647) ∧
    ¬ (-2147483648 ≤ (-2147483648 : Word).toInt - (1 : Word).toInt) ∧
    ¬ ((65536 : Word).toInt * (32768 : Word).toInt ≤ 2147483647) := by decide
theorem witness_DivisionTruncatesTowardZero :
    ((0 : Word) = 0) ∧ ((-2147483648 : Word).toInt = -2147483648 ∧ (-1 : Word).toInt = -1) ∧
    ((-1 : Word) ≠ 0 ∧ ¬ ((-2147483647 : Word).toInt = -2147483648 ∧ (-1 : Word).toInt = -1)) := by decide
theorem witness_StepRunsTheDecodedInstruction :
    (one 0x0300000000000005).engine = .running ∧ 0 ≤ ((one 0x0300000000000005).reg .P).toInt ∧
    (one 0x0300000000000005).prog[((one 0x0300000000000005).reg .P).toInt.toNat]? = some 0x0300000000000005 ∧
    decode 0x0300000000000005 = .ok (.loadi .A 5) := by decide
theorem witness_PlacedWordIsExecutedNext :
    (st ⟨0, 0, 0, 0, 8, 0⟩ [] eight).engine = .running ∧ 0 ≤ ((st ⟨0, 0, 0, 0, 8, 0⟩ [] eight).reg .P).toInt ∧
    decodeTableWord 64 0x0300000000000005 = some (.loadi .A 5) ∧
    7 < (st ⟨0, 0, 0, 0, 8, 0⟩ [] eight).prog.length ∧ 7 ≠ ((st ⟨0, 0, 0, 0, 8, 0⟩ [] eight).reg .P).toInt.toNat := by decide
theorem witness_FetchOutsideTheProgramFaults :
    (st ⟨0, 0, 0, 0, 8, 0⟩ [] eight).engine = .running ∧ ((st ⟨0, 0, 0, 0, -1, 0⟩ [] eight).reg .P).toInt < 0 ∧
    ((st ⟨0, 0, 0, 0, 8, 0⟩ [] eight).prog.length : Int) ≤ ((st ⟨0, 0, 0, 0, 8, 0⟩ [] eight).reg .P).toInt := by decide
/-- The clause about the last instruction: `LOADI A 5` alone, and then the end of the program. -/
theorem witness_FetchOutsideTheProgramFaults_at_the_end :
    let s := one 0x0300000000000005
    fetchInstr s = .ok (.loadi .A 5) ∧ (s.reg .P).toInt + 1 = s.prog.length ∧
    takenTarget (.loadi .A 5) s = none ∧ destination (.loadi .A 5) ≠ some .P ∧
    step s = .next (commit (Effect.ofReg .A 5) 1 s) ∧ launch s [] = some State.reset :=
  ⟨by decide, by decide, by decide, by decide, rfl, by decide⟩
/-- Also for `HaltedStepIsAStop`. -/
theorem witness_StepExistsExactlyWhileRunning :
    (∃ s : State, s.engine = .running) ∧ (∃ s : State, s.engine = .haltedNormal) ∧
    ∃ s : State, s.engine = .haltedFault :=
  ⟨⟨State.reset, rfl⟩, ⟨{ State.reset with engine := .haltedNormal }, rfl⟩,
    ⟨{ State.reset with engine := .haltedFault }, rfl⟩⟩
/-- A taken jump to the last index, and a write to `P`. -/
theorem witness_PcAfterACompletedStep :
    (fetchInstr (one 0x0C00000000000000) = .ok (.jmp 0) ∧
      step (one 0x0C00000000000000) = .next (commit (Effect.ofJump 0) 0 (one 0x0C00000000000000)) ∧
      takenTarget (.jmp 0) (one 0x0C00000000000000) = some 0) ∧
    (fetchInstr (one 0x034000007FFFFFFE) = .ok (.loadi .P 2147483646) ∧
      step (one 0x034000007FFFFFFE) =
        .next (commit (Effect.ofReg .P 2147483646) 2147483647 (one 0x034000007FFFFFFE)) ∧
      takenTarget (.loadi .P 2147483646) (one 0x034000007FFFFFFE) = none) :=
  ⟨⟨by decide, rfl, by decide⟩, ⟨by decide, rfl, by decide⟩⟩
theorem witness_LatchShowsTheFaultValue : FaultValue.outOfBounds 2048 ≠ .invalidAddress := by decide
theorem witness_FaultingStepChangesOnlyTheLatch :
    step State.reset = .next (raise 0 (.outOfBounds 0) State.reset) ∧
    (raise 0 (.outOfBounds 0) State.reset).engine = .haltedFault := ⟨rfl, rfl⟩
/-- The three origins: a fetch past the end, `LOADA A 2048`, `JMP 1` in a program of one word. -/
theorem witness_OutOfBoundsHasThreeOrigins :
    (MachineInv State.reset ∧ (State.reset.prog.length : Int) ≤ (State.reset.reg .P).toInt ∧
      step State.reset = .next (raise 0 (.outOfBounds 0) State.reset)) ∧
    (MachineInv (one 0x0100000000000800) ∧ fetchInstr (one 0x0100000000000800) = .ok (.loada .A 2048) ∧
      dataAddress (.loada .A 2048) (one 0x0100000000000800) = some 2048 ∧
      step (one 0x0100000000000800) =
        .next (raise 0x01 (.outOfBounds 2048) (one 0x0100000000000800))) ∧
    (MachineInv (one 0x0C00000000000001) ∧ fetchInstr (one 0x0C00000000000001) = .ok (.jmp 1) ∧
      takenTarget (.jmp 1) (one 0x0C00000000000001) = some 1 ∧
      step (one 0x0C00000000000001) =
        .next (raise 0x0C (.outOfBounds 1) (one 0x0C00000000000001))) :=
  ⟨⟨by decide, by decide, rfl⟩, ⟨by decide, by decide, by decide, rfl⟩,
    ⟨by decide, by decide, by decide, rfl⟩⟩
/-- `ADDI A 1` at `A = INT_MAX`, and `LOADI P 2147483647` (95_test_vectors.md P10). -/
theorem witness_OverflowHasItsOrigins :
    (let s := st ⟨2147483647, 0, 0, 0, 0, 0⟩ [] [0x0700000000000001];
      MachineInv s ∧ fetchInstr s = .ok (.addi .A 1) ∧
      exactResult (.addi .A 1) s = some 2147483648 ∧
      step s = .next (raise 0x07 (.overflow 0x07 2147483647 1) s)) ∧
    (let s := one 0x034000007FFFFFFF;
      MachineInv s ∧ fetchInstr s = .ok (.loadi .P 2147483647) ∧
      destination (.loadi .P 2147483647) = some .P ∧
      resultValue (.loadi .P 2147483647) s = some 2147483647 ∧
      step s = .next (raise 0x03 (.overflow 0x03 2147483647 1) s)) :=
  ⟨⟨by decide, by decide, by decide, rfl⟩, ⟨by decide, by decide, by decide, by decide, rfl⟩⟩
theorem witness_DivideByZeroHasOneOrigin :
    let s := one 0x0B01200000000000
    MachineInv s ∧ fetchInstr s = .ok (.div .A .B .C) ∧ s.reg .B = 0 ∧
      step s = .next (raise 0x0B (.divideByZero 0) s) :=
  ⟨by decide, by decide, by decide, rfl⟩
/-- A run of one step that faults, and the faulted state itself. -/
theorem witness_ErrorFlagsOneHotAndSticky :
    MachineInv State.reset ∧ Reaches State.reset (raise 0 (.outOfBounds 0) State.reset) ∧
    MachineInv (raise 0 (.outOfBounds 0) State.reset) ∧
    (raise 0 (.outOfBounds 0) State.reset).engine = .haltedFault :=
  ⟨by decide, .next .here rfl, by decide, rfl⟩
theorem witness_EngineStateTransitions :
    (let s := one 0x1100000000000000;
      MachineInv s ∧ fetchInstr s = .ok .endRun ∧ step s = .next (commit { halt := true } 1 s)) ∧
    ({ State.reset with engine := .haltedFault } : State).engine ≠ .running :=
  ⟨⟨by decide, by decide, rfl⟩, by decide⟩
/-- Also for `RunStartsWithClearLatchAndOutput`: a run that starts from a used state. -/
theorem witness_RunStartsWithZeroRegistersAndMemory :
    launch (st ⟨1, 2, 3, 4, 5, 6⟩ [(2047, 4)] []) [0x1100000000000000] =
      some (one 0x1100000000000000) ∧ (0 ≤ (2047 : Word).toInt ∧ (2047 : Word).toInt < 2048) := by decide
theorem witness_ResetForgetsAllButTheProgram :
    (one 0x1100000000000000).prog = (st ⟨1, 2, 3, 4, 5, 6⟩ [(3, 4)] [0x1100000000000000]).prog := rfl
theorem witness_InvariantHoldsAtLaunch :
    launch (st ⟨1, 2, 3, 4, 5, 6⟩ [(3, 4)] []) [0x1100000000000000] =
      some (one 0x1100000000000000) := by decide
theorem witness_StepKeepsTheInvariant :
    let s := one 0x0C00000000000000
    MachineInv s ∧ step s = .next (commit (Effect.ofJump 0) 0 s) := ⟨by decide, rfl⟩
theorem witness_OnlyTheDestinationRegisterChanges :
    let s := one 0x0300000000000005
    let t := commit (Effect.ofReg .A 5) 1 s
    step s = .next t ∧ t.reg .A ≠ s.reg .A := ⟨rfl, by decide⟩
/-- `STOREA P 2047` at index 1 changes the last cell. -/
theorem witness_OnlyStoresChangeMemory :
    let s := st ⟨0, 0, 0, 0, 1, 0⟩ [] [0, 0x04400000000007FF]
    let t := commit { cellWrite := some (2047, 1) } 2 s
    step s = .next t ∧ t.cell 2047 ≠ s.cell 2047 := ⟨rfl, by decide⟩
theorem witness_OnlyPrintAppendsToOutput :
    let s := one 0x1040000000000000
    let t := commit { emit := some 0 } 1 s
    step s = .next t ∧ Reaches s t := ⟨rfl, .next .here rfl⟩
theorem witness_ProgramIsReadOnly :
    let s := one 0x0C00000000000000
    Reaches s (commit (Effect.ofJump 0) 0 s) := .next .here rfl
/-- The same state with another latch and another output steps alike. -/
theorem witness_LatchAndOutputAreNeverRead :
    let s := one 0x1040000000000000
    let s' := { s with out := [7], latch := ⟨1, 2, 3, 4, 5⟩ }
    SameReadableState s s' ∧ step s = .next (commit { emit := some 0 } 1 s) :=
  ⟨⟨rfl, rfl, rfl, rfl⟩, rfl⟩
theorem witness_AssembledLineIsOneInstruction :
    assembleLine "  JLT D	C -4 " = .ok 0x0F320000FFFFFFFC ∧
    immediateOperand (.jlt .D .C (-4)) = some (-4) := by decide
/-- `INT_MIN`, with a minus sign, and an instruction without an integer. -/
theorem witness_SpelledInstructionAssembles :
    SpellsInstr (tokensFrom [] "JLT D C -2147483648".toList) (.jlt .D .C (-2147483648)) ∧
    SpellsInstr (tokensFrom [] "SUB A B X".toList) (.sub .A .B .X) :=
  ⟨⟨["-2147483648".toList], by decide, _, rfl, integerOfToken_eq_some.1 (by decide)⟩,
    ⟨[], by decide, rfl⟩⟩
theorem witness_AssemblerReportsErrorsInOrder_counts :
    tokensFrom [] " ".toList = [] ∧ (∀ o ∈ allOpcodes, o.mnemonic.toList ≠ "add".toList) ∧
    (tokensFrom [] "ADD A B".toList).length ≠ Opcode.add.format.operandCount + 1 ∧
    (tokensFrom [] "JZ Y x".toList).length = Opcode.jz.format.operandCount + 1 := by decide
/-- A register position that names none, and an integer position one past `INT_MAX`. -/
theorem witness_AssemblerReportsErrorsInOrder_operands :
    (∀ r, registerName r ≠ ['Y']) ∧ registerName .A = ['A'] ∧
    (∀ v : Word, ¬ SpellsInteger "2147483648".toList v.toInt) ∧
    SpellsInteger "2147483647".toList (2147483647 : Word).toInt := by
  refine ⟨fun r => by cases r <;> decide, rfl, fun v hv => ?_, integerOfToken_eq_some.1 (by decide)⟩
  have h := integerOfToken_eq_some.2 hv
  rw [show integerOfToken "2147483648".toList = some 2147483648 by decide] at h
  have h1 := BitVec.toInt_lt (x := v)
  have h2 := Option.some.inj h
  omega
/-- White space before, between and after, and a last token without any after it. -/
theorem witness_LineIsCutAtWhiteSpace :
    (∀ c ∈ [' ', '\t'], c.isWhitespace = true) ∧
    (∀ p ∈ [("JMP".toList, [' ', '\t'])],
      p.1 ≠ [] ∧ (∀ c ∈ p.1, c.isWhitespace = false) ∧ p.2 ≠ [] ∧
        ∀ c ∈ p.2, c.isWhitespace = true) ∧
    ("-1".toList ≠ [] ∧ ∀ c ∈ "-1".toList, c.isWhitespace = false) := by
  simp [Char.isWhitespace]
theorem witness_AssemblerIsAllOrNothing :
    assemble ["JMP 1", "END"] = .ok [0x0C00000000000001, 0x1100000000000000] ∧
    ["JMP 1", "END"][1]? = some "END" := by decide

end Sys2Proof.Tests
end

