-- ==== Sys2Proof/Proofs/RunStart.lean ====
section
/-! Obligations about the state a run starts in (10_state.md, 70_reset_and_hazards.md). A run starts
at reset or by a launch, and both are one operation: `State.applyReset`. -/

namespace Sys2Proof.Machine

/-- A launch answers exactly for a program of legal length, with the reset values around it. -/
theorem launch_eq_some_iff {s t : State} {prog : List InstrWord} :
    launch s prog = some t ↔
      programWellFormed prog ∧ ({ s with prog := prog } : State).applyReset = t := by
  simp [launch, State.loadProgram]

/-- Reset forgets everything except the program, and `State.reset` has the empty one. -/
@[simp] theorem applyReset_reset : State.reset.applyReset = State.reset := rfl

/-- Every state a run starts in is the result of a reset. -/
theorem exists_applyReset_of_runStart {t : State}
    (h : t = State.reset ∨ ∃ s prog, launch s prog = some t) : ∃ s : State, s.applyReset = t := by
  obtain rfl | ⟨s, prog, hl⟩ := h
  · exact ⟨State.reset, applyReset_reset⟩
  · obtain ⟨-, ht⟩ := launch_eq_some_iff.1 hl
    exact ⟨_, ht⟩

/-- After a reset every register is 0, `P` included (10_state.md R14). -/
@[simp] theorem applyReset_reg (s : State) (r : Reg) : s.applyReset.reg r = 0 :=
  RegFile.get_reset r

/-- After a reset every data address can be read and its cell is 0 (10_state.md R18). -/
theorem memRead_applyReset (s : State) {a : Word} (h : InData a) :
    memRead s.applyReset.mem a = .ok 0 := by
  rw [memRead_of_inData h, applyReset_mem, Memory.read_nil]

/-- Settles O41: a run starts in the result of a reset, whose registers, cells and `STATE` are
known. -/
theorem runStartsWithZeroRegistersAndMemory :
    Obligations.RunStartsWithZeroRegistersAndMemory := by
  intro t ht
  obtain ⟨s, rfl⟩ := exists_applyReset_of_runStart ht
  exact ⟨applyReset_reg s, fun a ha => memRead_applyReset s ha, applyReset_engine s⟩

end Sys2Proof.Machine
end

