-- ==== Sys2Proof/Proofs/ProgramSpace.lean ====
section
/-! Obligations about the program space (20_memory.md R54). Neither of the two ways a step ends,
`raise` and `commit`, writes `PROG`, so the word fetched at an index is the one loaded there. -/

namespace Sys2Proof.Machine

/-- Commit or fault, the end of a step leaves the program. -/
@[simp] theorem finish_prog (op : BitVec 8) (answer : Except FaultValue Effect) (s : State) :
    (finish op answer s).prog = s.prog := by
  obtain ⟨f, -, h⟩ | ⟨e, f, -, -, h⟩ | ⟨e, n, -, -, h⟩ := finish_cases op answer s
  · rw [h, raise_prog]
  · rw [h, raise_prog]
  · rw [h, commit_prog]

/-- No instruction writes the program (20_memory.md R54). -/
theorem exec_prog {i : Instr} {s t : State} (h : exec i s = .next t) : t.prog = s.prog := by
  rw [exec_eq_finish, Host.Outcome.next.injEq] at h
  rw [← h, finish_prog]

/-- No step writes the program, whether it faults before the execute phase or executes. -/
theorem step_prog {s t : State} (h : step s = .next t) : t.prog = s.prog := by
  obtain ⟨-, ⟨f, -, rfl⟩ | ⟨i, -, hexec⟩⟩ := step_cases h
  · exact raise_prog s 0 f
  · exact exec_prog hexec

/-- The program is the same along every run. -/
theorem Reaches.prog_eq {s t : State} (h : Reaches s t) : t.prog = s.prog := by
  induction h with
  | here => rfl
  | next _ hstep ih => exact (step_prog hstep).trans ih

/-- A word is fetched exactly if `P` is not negative and the program has that word at `P`
(40_step.md R92, R93). -/
theorem fetchWord_eq_ok_iff (s : State) (w : InstrWord) :
    fetchWord s = .ok w ↔
      0 ≤ (s.reg .P).toInt ∧ s.prog[(s.reg .P).toInt.toNat]? = some w := by
  obtain ⟨v, ⟨hnonneg, -⟩, hv, hfetch⟩ | ⟨hout, hfetch⟩ := fetchWord_cases s
  · simp [hfetch, hv, hnonneg]
  · have hnone (hnonneg : 0 ≤ (s.reg .P).toInt) :
        s.prog[(s.reg .P).toInt.toNat]? = none := by
      rw [List.getElem?_eq_none_iff]
      simp only [InProgram, State.plen] at hout
      omega
    constructor
    · intro h
      simp [hfetch] at h
    · rintro ⟨hnonneg, hw⟩
      simp [hnone hnonneg] at hw

/-- Settles O49: the program of a reached state is that of the first, and the fetch reads it. -/
theorem programIsReadOnly : Obligations.ProgramIsReadOnly := by
  intro s t hreach
  have hprog : t.prog = s.prog := hreach.prog_eq
  refine ⟨hprog, fun n => by rw [hprog], fun w hfetch => ?_⟩
  rw [← hprog]
  exact (fetchWord_eq_ok_iff t w).1 hfetch

end Sys2Proof.Machine
end

