-- ==== Sys2Proof/Proofs/StepExistence.lean ====
section
/-! Obligations about when the core takes a step (40_step.md R90). A running core has a next state
whatever word it fetches, because no phase of a step stops the host: a faulting phase ends in the
faulted state, and every instruction's execute phase ends in `finish`, which is total. -/

namespace Sys2Proof.Machine

/-- A running core always has a next state: a fetch or decode fault is taken within the step, and an
instruction ends in a commit or in its own fault. -/
theorem exists_step_of_running {s : State} (hrun : s.engine = .running) :
    ∃ t, step s = .next t := by
  cases hfetch : fetchInstr s with
  | error f => exact ⟨raise 0 f s, step_of_fetchInstr_error hrun hfetch⟩
  | ok i => exact ⟨_, (step_of_fetchInstr hrun hfetch).trans (exec_eq_finish i s)⟩

/-- Settles O30: a next state shows a running core, and a running core has one. -/
theorem stepExistsExactlyWhileRunning : Obligations.StepExistsExactlyWhileRunning := by
  intro s
  constructor
  · rintro ⟨t, hstep⟩
    exact (step_cases hstep).1
  · exact exists_step_of_running

end Sys2Proof.Machine
end

section
/-! The decoder and the encoder (30_encoding.md). An instruction is its opcode, its registers in
assembly order and its immediate; both directions of the round trip, the comparison with
opcode_table.json and the order of the three decode faults all go through that reading. -/

namespace Sys2Proof.Machine

/-! ### An instruction as opcode, registers and immediate -/

/-- The instruction of an opcode whose `k`-th register operand is `r k` and whose immediate is
`v`; operands the format does not have are not looked at. -/
def instrOf (o : Opcode) (r : Nat → Reg) (v : Word) : Instr :=
  match o with
  | .loada => .loada (r 0) v
  | .load => .load (r 0)
  | .loadi => .loadi (r 0) v
  | .storea => .storea (r 0) v
  | .store => .store (r 0)
  | .move => .move (r 0) (r 1)
  | .addi => .addi (r 0) v
  | .add => .add (r 0) (r 1) (r 2)
  | .sub => .sub (r 0) (r 1) (r 2)
  | .mul => .mul (r 0) (r 1) (r 2)
  | .div => .div (r 0) (r 1) (r 2)
  | .jmp => .jmp v
  | .jmpr => .jmpr (r 0)
  | .jz => .jz (r 0) v
  | .jlt => .jlt (r 0) (r 1) v
  | .print => .print (r 0)
  | .endRun => .endRun

@[simp] theorem opcode_instrOf (o : Opcode) (r : Nat → Reg) (v : Word) :
    (instrOf o r v).opcode = o := by
  cases o <;> rfl

theorem registerOperands_instrOf (o : Opcode) (r : Nat → Reg) (v : Word) :
    registerOperands (instrOf o r v) = (List.range o.format.registerCount).map r := by
  cases o <;> rfl

@[simp] theorem immediateOperand_instrOf (o : Opcode) (r : Nat → Reg) (v : Word) :
    immediateOperand (instrOf o r v) = if o.format.hasImmediate then some v else none := by
  cases o <;> rfl

theorem registerOperands_instrOf_getD {o : Opcode} {rs : List Reg} (v : Word)
    (hlen : rs.length = o.format.registerCount) :
    registerOperands (instrOf o (fun k => rs.getD k .A) v) = rs := by
  rw [registerOperands_instrOf, ← hlen]
  refine List.ext_getElem (by simp) fun k h _ => ?_
  simp only [List.length_map, List.length_range] at h
  simp [h]

theorem length_registerOperands (i : Instr) :
    (registerOperands i).length = i.opcode.format.registerCount := by
  cases i <;> rfl

/-- The operands fill the fields of the word in assembly order (30_encoding.md R61, R78). -/
theorem encode_eq_packWord (i : Instr) :
    encode i = packWord i.opcode.byte (((registerOperands i).map Reg.number).getD 0 0)
      (((registerOperands i).map Reg.number).getD 1 0)
      (((registerOperands i).map Reg.number).getD 2 0) ((immediateOperand i).getD 0) := by
  cases i <;> rfl

/-- The encoded word of every instruction carries its opcode and has no bit its format does not
use. -/
theorem encodingFields (i : Instr) : Laws.EncodingFields.Statement i := by
  cases i with
  | loada r a => exact Laws.EncodingFields.loada r a
  | load r => exact Laws.EncodingFields.load r
  | loadi r v => exact Laws.EncodingFields.loadi r v
  | storea r a => exact Laws.EncodingFields.storea r a
  | store r => exact Laws.EncodingFields.store r
  | move a d => exact Laws.EncodingFields.move a d
  | addi r v => exact Laws.EncodingFields.addi r v
  | add a b d => exact Laws.EncodingFields.add a b d
  | sub a b d => exact Laws.EncodingFields.sub a b d
  | mul a b d => exact Laws.EncodingFields.mul a b d
  | div a b d => exact Laws.EncodingFields.div a b d
  | jmp t => exact Laws.EncodingFields.jmp t
  | jmpr r => exact Laws.EncodingFields.jmpr r
  | jz r t => exact Laws.EncodingFields.jz r t
  | jlt a b t => exact Laws.EncodingFields.jlt a b t
  | print r => exact Laws.EncodingFields.print r
  | endRun => exact Laws.EncodingFields.endRun

/-! ### The fields of a word -/

/-- The used register fields, by the names the decoder reads them under. -/
theorem usedRegisterFields_eq (o : Opcode) (w : InstrWord) :
    usedRegisterFields o w = [r1Field w, r2Field w, r3Field w].take o.format.registerCount := rfl

/-- The register fields of an encoded word that its format uses hold the numbers of its registers,
in assembly order. -/
theorem usedRegisterFields_encode (i : Instr) :
    usedRegisterFields i.opcode (encode i) = (registerOperands i).map Reg.number := by
  rw [usedRegisterFields_eq]
  cases i <;> simp [encode, Instr.opcode, Opcode.format, Format.registerCount, registerOperands]

/-- The immediate field of an encoded word holds the immediate of the instruction, if it has one. -/
theorem immField_encode {i : Instr} {v : Word} (h : immediateOperand i = some v) :
    immField (encode i) = v := by
  rw [encode_eq_packWord, immField_packWord, h, Option.getD_some]

/-- Bit `j` of a word is the bit of the field that holds it (30_encoding.md R61). -/
theorem getLsbD_eq_of_field (w : InstrWord) (lo n j : Nat) (h : lo ≤ j) (h' : j < lo + n) :
    (w.extractLsb' lo n).getLsbD (j - lo) = w.getLsbD j := by
  rw [BitVec.getLsbD_extractLsb', decide_eq_true (by omega), Bool.true_and]
  congr 1
  omega

/-- A word whose reserved bits 32 to 43 are 0 is the packing of its fields (30_encoding.md R61). -/
theorem packWord_fields {w : InstrWord}
    (hrsv : ∀ j, 32 ≤ j → j < 44 → w.getLsbD j = false) :
    packWord (opField w) (r1Field w) (r2Field w) (r3Field w) (immField w) = w := by
  refine BitVec.eq_of_getLsbD_eq fun j hj => ?_
  rw [getLsbD_packWord]
  split_ifs with h1 h2 h3 h4 h5
  · exact getLsbD_eq_of_field w 0 32 j (by omega) (by omega)
  · exact (hrsv j (by omega) h2).symm
  · exact getLsbD_eq_of_field w 44 4 j (by omega) (by omega)
  · exact getLsbD_eq_of_field w 48 4 j (by omega) (by omega)
  · exact getLsbD_eq_of_field w 52 4 j (by omega) (by omega)
  · exact getLsbD_eq_of_field w 56 8 j (by omega) (by omega)

/-- A field all of whose bits are spare is 0. -/
theorem extractLsb'_eq_zero {w : InstrWord} {lo n : Nat}
    (h : ∀ j, lo ≤ j → j < lo + n → w.getLsbD j = false) : w.extractLsb' lo n = 0 := by
  refine BitVec.eq_of_getLsbD_eq fun j hj => ?_
  rw [BitVec.getLsbD_extractLsb', h (lo + j) (by omega) (by omega)]
  simp

/-- A field all of whose bits are under the format's mask is 0 in a word without a bit there. -/
theorem field_eq_zero {w : InstrWord} {f : Format} (h : w &&& f.mbz = 0) (lo n : Nat)
    (hlt : lo + n ≤ 64) (hs : ∀ j, lo ≤ j → j < lo + n → f.spareBit j = true) :
    w.extractLsb' lo n = 0 :=
  extractLsb'_eq_zero fun j h1 h2 =>
    (and_mbz_eq_zero_iff w f).1 h j (by omega) (hs j h1 h2)

/-- No format uses bits 32 to 43. -/
theorem spareBit_reserved (f : Format) (j : Nat) (h1 : 32 ≤ j) (h2 : j < 44) :
    f.spareBit j = true := by
  cases f <;> simp [Format.spareBit] <;> omega

/-- The register fields past the number the format has are spare (30_encoding.md R65). -/
theorem spareBit_register (f : Format) (k j : Nat) (hk : f.registerCount ≤ k) (h3 : k < 3)
    (h1 : 52 - 4 * k ≤ j) (h2 : j < 52 - 4 * k + 4) : f.spareBit j = true := by
  cases f <;> simp [Format.spareBit, Format.registerCount] at hk ⊢ <;> omega

/-- The immediate field of a format without an immediate is spare (30_encoding.md R65). -/
theorem spareBit_immediate (f : Format) (j : Nat) (hf : f.hasImmediate = false) (h : j < 32) :
    f.spareBit j = true := by
  cases f <;> simp [Format.spareBit, Format.hasImmediate] at hf ⊢ <;> omega

/-- A word without a bit in its format's mask is the packing of the fields the format uses, the
others 0 (30_encoding.md R65). -/
theorem packWord_usedFields {w : InstrWord} {o : Opcode} (h : w &&& o.format.mbz = 0) :
    packWord (opField w) ((usedRegisterFields o w).getD 0 0) ((usedRegisterFields o w).getD 1 0)
      ((usedRegisterFields o w).getD 2 0) (if o.format.hasImmediate then immField w else 0) =
        w := by
  have hpack := packWord_fields (w := w) fun j h1 h2 =>
    (and_mbz_eq_zero_iff w _).1 h j (by omega) (spareBit_reserved _ j h1 h2)
  have h1 : o.format.registerCount ≤ 0 → r1Field w = 0 := fun hk =>
    field_eq_zero h 52 4 (by omega) fun j => spareBit_register _ 0 j hk (by omega)
  have h2 : o.format.registerCount ≤ 1 → r2Field w = 0 := fun hk =>
    field_eq_zero h 48 4 (by omega) fun j => spareBit_register _ 1 j hk (by omega)
  have h3 : o.format.registerCount ≤ 2 → r3Field w = 0 := fun hk =>
    field_eq_zero h 44 4 (by omega) fun j => spareBit_register _ 2 j hk (by omega)
  have hi : o.format.hasImmediate = false → immField w = 0 := fun hf =>
    field_eq_zero h 0 32 (by omega) fun j _ hj => spareBit_immediate _ j hf (by omega)
  rw [usedRegisterFields_eq]
  generalize o.format = f at h1 h2 h3 hi ⊢
  clear h
  cases f <;> simp_all [Format.registerCount, Format.hasImmediate]

/-! ### The decoder -/

/-- A used register field names a register, or is 6 to 15 and the fault (30_encoding.md R68). -/
theorem regOfField_cases (op : BitVec 8) (n : BitVec 4) :
    (∃ r : Reg, r.number = n ∧ n.toNat < 6 ∧ regOfField op n = .ok r) ∨
    (6 ≤ n.toNat ∧ regOfField op n = .error (.invalidRegister op n)) := by
  have hbound : ∀ n : BitVec 4, (Reg.ofNumber n).isSome = decide (n.toNat < 6) := by decide
  have hn := hbound n
  cases h : Reg.ofNumber n with
  | some r =>
    exact .inl ⟨r, number_of_ofNumber h, by simpa [h] using hn, by simp [regOfField, h]⟩
  | none => exact .inr ⟨by simpa [h] using hn, by simp [regOfField, h]⟩

/-- The register fields are all names of registers, or the first that is not is reported. -/
theorem mapM_regOfField_cases (op : BitVec 8) (ns : List (BitVec 4)) :
    (∃ rs : List Reg, rs.map Reg.number = ns ∧
      ns.find? (fun k => decide (6 ≤ k.toNat)) = none ∧ ns.mapM (regOfField op) = .ok rs) ∨
    (∃ n, ns.find? (fun k => decide (6 ≤ k.toNat)) = some n ∧
      ns.mapM (regOfField op) = .error (.invalidRegister op n)) := by
  induction ns with
  | nil => exact .inl ⟨[], rfl, rfl, rfl⟩
  | cons n ns ih =>
    rw [List.mapM_cons]
    obtain ⟨r, hr, hlt, hok⟩ | ⟨hge, herr⟩ := regOfField_cases op n
    · rw [hok, List.find?_cons_of_neg (by simpa using hlt)]
      obtain ⟨rs, hrs, hnone, hok'⟩ | ⟨m, hm, herr⟩ := ih
      · exact .inl ⟨r :: rs, by rw [List.map_cons, hr, hrs], hnone, by rw [hok']; rfl⟩
      · exact .inr ⟨m, hm, by rw [herr]; rfl⟩
    · rw [herr, List.find?_cons_of_pos (by simpa using hge)]
      exact .inr ⟨n, rfl, rfl⟩

/-- The decoder reads the used register fields in order and then builds the instruction
(30_encoding.md R68, R71). -/
theorem decodeOperands_eq (o : Opcode) (w : InstrWord) :
    decodeOperands o w = (fun rs => instrOf o (fun k => rs.getD k .A) (immField w)) <$>
      (usedRegisterFields o w).mapM (regOfField (opField w)) := by
  rw [usedRegisterFields_eq]
  cases o <;>
    simp [decodeOperands, instrOf, Opcode.format, Format.registerCount, List.mapM_cons]

/-- What the decoder answers for a known opcode and no spare bit: the instruction of the used
fields, or the first bad register field. -/
theorem decodeOperands_cases (o : Opcode) (w : InstrWord) :
    (∃ i : Instr, i.opcode = o ∧ (registerOperands i).map Reg.number = usedRegisterFields o w ∧
      immediateOperand i = (if o.format.hasImmediate then some (immField w) else none) ∧
      (usedRegisterFields o w).find? (fun k => decide (6 ≤ k.toNat)) = none ∧
      decodeOperands o w = .ok i) ∨
    (∃ n, (usedRegisterFields o w).find? (fun k => decide (6 ≤ k.toNat)) = some n ∧
      decodeOperands o w = .error (.invalidRegister (opField w) n)) := by
  rw [decodeOperands_eq]
  obtain ⟨rs, hrs, hnone, hok⟩ | ⟨n, hn, herr⟩ :=
    mapM_regOfField_cases (opField w) (usedRegisterFields o w)
  · left
    have hlen : rs.length = o.format.registerCount := by
      rw [← List.length_map (f := Reg.number), hrs]
      cases o <;> rfl
    exact ⟨instrOf o (fun k => rs.getD k .A) (immField w), opcode_instrOf o _ _,
      by rw [registerOperands_instrOf_getD _ hlen, hrs], immediateOperand_instrOf o _ _, hnone,
      by rw [hok]; rfl⟩
  · exact .inr ⟨n, hn, by rw [herr]; rfl⟩

/-- A word with a known opcode and no bit in its format's mask is decoded by its operands. -/
theorem decode_of_opcode {w : InstrWord} {o : Opcode} (hop : opField w = o.byte)
    (hspare : w &&& o.format.mbz = 0) : decode w = decodeOperands o w := by
  simp [decode, hop, hspare]

/-- A word with a known opcode and a bit in its format's mask is the operand count fault. -/
theorem decode_of_spareBit {w : InstrWord} {o : Opcode} (hop : opField w = o.byte)
    (hspare : w &&& o.format.mbz ≠ 0) : decode w = .error (.wrongOperandCount (opField w)) := by
  simp only [decode, hop, ofByte_byte, if_neg hspare]

/-- The bytes that are no opcode (30_encoding.md R66). -/
theorem ofByte_eq_none_iff (b : BitVec 8) :
    Opcode.ofByte b = none ↔ b.toNat = 0 ∨ 0x12 ≤ b.toNat := by
  have all : ∀ b : BitVec 8,
      (Opcode.ofByte b).isNone = (decide (b.toNat = 0) || decide (0x12 ≤ b.toNat)) := by decide
  rw [← Option.isNone_iff_eq_none, all b, Bool.or_eq_true, decide_eq_true_iff, decide_eq_true_iff]

/-- A byte that is no opcode is the unknown opcode fault. -/
theorem decode_of_unknown {w : InstrWord} (h : Opcode.ofByte (opField w) = none) :
    decode w = .error (.unknownOpcode (opField w)) := by
  simp [decode, h]

/-- The checks a word passes to decode to an instruction, and what the instruction then is. -/
theorem decode_eq_ok {w : InstrWord} {i : Instr} (h : decode w = .ok i) :
    opField w = i.opcode.byte ∧ w &&& i.opcode.format.mbz = 0 ∧
      (registerOperands i).map Reg.number = usedRegisterFields i.opcode w ∧
      immediateOperand i = if i.opcode.format.hasImmediate then some (immField w) else none := by
  cases ho : Opcode.ofByte (opField w) with
  | none => simp [decode_of_unknown ho] at h
  | some o =>
    have hop := (byte_of_ofByte ho).symm
    by_cases hspare : w &&& o.format.mbz = 0
    · rw [decode_of_opcode hop hspare] at h
      obtain ⟨j, rfl, hregs, himm, -, hj⟩ | ⟨n, -, hn⟩ := decodeOperands_cases o w
      · obtain rfl : j = i := by simpa [hj] using h
        exact ⟨hop, hspare, hregs, himm⟩
      · simp [hn] at h
    · simp [decode_of_spareBit hop hspare] at h

/-! ### The round trips -/

/-- The operands of an encoded word are those of the instruction. -/
theorem decodeOperands_encode (i : Instr) : decodeOperands i.opcode (encode i) = .ok i := by
  cases i <;> simp [decodeOperands, encode, Instr.opcode] <;> rfl

/-- Settles O2: the encoded word passes the opcode and spare-bit checks, and its fields give the
operands back. -/
theorem decodeOfEncodeIsTheInstruction : Obligations.DecodeOfEncodeIsTheInstruction := by
  intro i
  obtain ⟨hop, hspare⟩ := encodingFields i
  rw [decode_of_opcode hop hspare, decodeOperands_encode]

/-- Settles O3: a word that decodes is the packing of the fields its format uses, and these are
the numbers of the operands. -/
theorem decodedWordIsTheEncoding : Obligations.DecodedWordIsTheEncoding := by
  intro w i h
  obtain ⟨hop, hspare, hregs, himm⟩ := decode_eq_ok h
  have hi : (immediateOperand i).getD 0 =
      if i.opcode.format.hasImmediate then immField w else 0 := by
    rw [himm]
    split <;> rfl
  rw [encode_eq_packWord, ← hop, hregs, hi, packWord_usedFields hspare]

/-! ### The opcode table -/

/-- Every row of opcode_table.json selects by the opcode byte and has its opcode's mask and register
fields. -/
theorem opcodeTable_row :
    ∀ row ∈ opcodeTable, row.mask = 0xFF00000000000000#64 ∧
      row.pattern = row.opcode.byte.setWidth 64 <<< 56 ∧ row.mbz = row.opcode.format.mbz ∧
      row.regLows = [52, 48, 44].take row.opcode.format.registerCount := by
  decide

/-- Every opcode has a row in the table. -/
theorem exists_opcodeTable_row (o : Opcode) : ∃ row ∈ opcodeTable, row.opcode = o := by
  cases o <;> decide

/-- The mask of the opcode byte selects a pattern exactly if the opcode field is its byte. -/
theorem and_opcodeMask_eq_iff (w : InstrWord) (b : BitVec 8) :
    w &&& 0xFF00000000000000#64 = b.setWidth 64 <<< 56 ↔ opField w = b := by
  have hmask : ∀ j < 64, (0xFF00000000000000#64).getLsbD j = decide (56 ≤ j) := by decide
  constructor
  · rintro h
    refine BitVec.eq_of_getLsbD_eq fun j hj => ?_
    have hbit := congrArg (fun v : InstrWord => v.getLsbD (56 + j)) h
    simp only [BitVec.getLsbD_and, hmask (56 + j) (by omega), BitVec.getLsbD_shiftLeft,
      BitVec.getLsbD_setWidth] at hbit
    simpa [opField, BitVec.getLsbD_extractLsb', hj, show 56 + j < 64 by omega,
      show j < 64 by omega] using hbit
  · rintro rfl
    refine BitVec.eq_of_getLsbD_eq fun j hj => ?_
    rw [BitVec.getLsbD_and, hmask j hj]
    by_cases h : 56 ≤ j
    · simp [opField, h, hj, show ¬ j < 56 by omega, show j - 56 < 8 by omega]
    · simp [h, show j < 56 by omega]

/-- What a row of the table accepts, in the decoder's terms. -/
theorem accepts_iff {row : OpcodeRow} (hrow : row ∈ opcodeTable) (w : InstrWord) :
    row.accepts w = true ↔
      opField w = row.opcode.byte ∧ w &&& row.opcode.format.mbz = 0 ∧
        (usedRegisterFields row.opcode w).find? (fun k => decide (6 ≤ k.toNat)) = none := by
  obtain ⟨hmask, hpattern, hmbz, hregs⟩ := opcodeTable_row row hrow
  have hfields : usedRegisterFields row.opcode w =
      row.regLows.map fun lo => w.extractLsb' lo 4 := by
    rw [hregs, List.map_take]
    rfl
  rw [hfields]
  simp only [OpcodeRow.accepts, OpcodeRow.selects, OpcodeRow.spareBitsZero,
    OpcodeRow.registersValid, hmask, hpattern, hmbz, Bool.and_eq_true, beq_iff_eq,
    and_opcodeMask_eq_iff, and_assoc, List.all_eq_true, decide_eq_true_eq, List.find?_eq_none,
    List.mem_map, forall_exists_index, and_imp, forall_apply_eq_imp_iff₂, Nat.not_le,
    Nat.lt_succ_iff]

/-- A word decodes to an instruction of opcode `o` exactly if it has that opcode, no spare bit, and
no bad register field. -/
theorem exists_decode_iff (w : InstrWord) (o : Opcode) :
    (∃ i, decode w = .ok i ∧ i.opcode = o) ↔
      opField w = o.byte ∧ w &&& o.format.mbz = 0 ∧
        (usedRegisterFields o w).find? (fun k => decide (6 ≤ k.toNat)) = none := by
  constructor
  · rintro ⟨i, hi, rfl⟩
    obtain ⟨hop, hspare, -⟩ := decode_eq_ok hi
    rw [decode_of_opcode hop hspare] at hi
    obtain ⟨j, -, -, -, hnone, -⟩ | ⟨n, -, hn⟩ := decodeOperands_cases i.opcode w
    · exact ⟨hop, hspare, hnone⟩
    · simp [hn] at hi
  · rintro ⟨hop, hspare, hnone⟩
    rw [decode_of_opcode hop hspare]
    obtain ⟨j, hj, -, -, -, hok⟩ | ⟨n, hn, -⟩ := decodeOperands_cases o w
    · exact ⟨j, hok, hj⟩
    · simp [hn] at hnone

/-- Settles O4: a row of the table and the decoder make the same three checks. -/
theorem decoderAgreesWithOpcodeTable : Obligations.DecoderAgreesWithOpcodeTable := by
  intro w
  have hrow : ∀ row ∈ opcodeTable,
      (row.accepts w = true ↔ ∃ i, decode w = .ok i ∧ i.opcode = row.opcode) :=
    fun row hmem => (accepts_iff hmem w).trans (exists_decode_iff w row.opcode).symm
  refine ⟨?_, fun row hmem => (hrow row hmem).1⟩
  rw [wordWellFormed, List.any_eq_true]
  constructor
  · rintro ⟨row, hmem, hacc⟩
    obtain ⟨i, hi, -⟩ := (hrow row hmem).1 hacc
    exact ⟨i, hi⟩
  · rintro ⟨i, hi⟩
    obtain ⟨row, hmem, hop⟩ := exists_opcodeTable_row i.opcode
    exact ⟨row, hmem, (hrow row hmem).2 ⟨i, hi, hop.symm⟩⟩

/-- Settles O1, by evaluating the decoder on the ten words. -/
theorem writtenOutWordsDecode : Obligations.WrittenOutWordsDecode := by
  unfold Obligations.WrittenOutWordsDecode
  decide

end Sys2Proof.Machine
end

section
/-! The byte image of a program (20_memory.md R48): each word gives its 8 bytes, the most
significant first, and 8 bytes give the word back, since each bit lies in exactly one of them. -/

namespace Sys2Proof.Machine

/-- Bit `j` of byte `k` of a word, moved back to its place: the word's own bit if it lies in the
byte. -/
theorem getLsbD_byte_shiftLeft (w : InstrWord) (k j : Nat) (hj : j < 64) :
    ((w.extractLsb' k 8).setWidth 64 <<< k).getLsbD j =
      (decide (k ≤ j ∧ j < k + 8) && w.getLsbD j) := by
  rw [BitVec.getLsbD_shiftLeft, BitVec.getLsbD_setWidth, BitVec.getLsbD_extractLsb',
    decide_eq_true hj, decide_eq_true (show j - k < 64 by omega)]
  by_cases hk : k ≤ j
  · rw [show k + (j - k) = j by omega, decide_eq_false (show ¬ j < k by omega)]
    simp [hk, show j - k < 8 ↔ j < k + 8 by omega]
  · simp [hk, show j < k by omega]

/-- The 8 bytes of a word, read back, are the word. -/
theorem wordOfBytes_bytesOfWord (w : InstrWord) :
    wordOfBytes (w.extractLsb' 56 8) (w.extractLsb' 48 8) (w.extractLsb' 40 8)
      (w.extractLsb' 32 8) (w.extractLsb' 24 8) (w.extractLsb' 16 8) (w.extractLsb' 8 8)
      (w.extractLsb' 0 8) = w := by
  refine BitVec.eq_of_getLsbD_eq fun j hj => ?_
  have h0 := getLsbD_byte_shiftLeft w 0 j hj
  rw [BitVec.shiftLeft_zero] at h0
  simp only [wordOfBytes, BitVec.getLsbD_or, getLsbD_byte_shiftLeft w _ j hj, h0,
    ← Bool.and_or_distrib_right, ← Bool.decide_or]
  rw [decide_eq_true (by omega), Bool.true_and]

theorem imageOfProgram_cons (w : InstrWord) (prog : List InstrWord) :
    imageOfProgram (w :: prog) = bytesOfWord w ++ imageOfProgram prog := rfl

@[simp] theorem length_bytesOfWord (w : InstrWord) : (bytesOfWord w).length = 8 := rfl

theorem programOfImage_imageOfProgram (prog : List InstrWord) :
    programOfImage (imageOfProgram prog) = some prog := by
  induction prog with
  | nil => rfl
  | cons w prog ih =>
    simp only [imageOfProgram_cons, bytesOfWord, List.cons_append, List.nil_append,
      programOfImage, ih, Option.map_some, wordOfBytes_bytesOfWord]

theorem length_imageOfProgram (prog : List InstrWord) :
    (imageOfProgram prog).length = 8 * prog.length := by
  induction prog with
  | nil => rfl
  | cons w prog ih =>
    rw [imageOfProgram_cons, List.length_append, length_bytesOfWord, ih, List.length_cons]
    omega

/-- Byte `k` of a word, counted from the most significant. -/
theorem getElem?_bytesOfWord (w : InstrWord) (k : Nat) (hk : k < 8) :
    (bytesOfWord w)[k]? = some (w.extractLsb' (56 - 8 * k) 8) := by
  interval_cases k <;> rfl

theorem getElem?_imageOfProgram {prog : List InstrWord} {n k : Nat} {w : InstrWord}
    (hw : prog[n]? = some w) (hk : k < 8) :
    (imageOfProgram prog)[8 * n + k]? = some (w.extractLsb' (56 - 8 * k) 8) := by
  induction prog generalizing n with
  | nil => simp at hw
  | cons v prog ih =>
    rw [imageOfProgram_cons]
    cases n with
    | zero =>
      obtain rfl : v = w := by simpa using hw
      rw [List.getElem?_append_left (by simpa using hk), Nat.mul_zero, Nat.zero_add,
        getElem?_bytesOfWord v k hk]
    | succ n =>
      rw [List.getElem?_append_right (by simp only [length_bytesOfWord]; omega),
        length_bytesOfWord, show 8 * (n + 1) + k - 8 = 8 * n + k by omega]
      exact ih (by simpa using hw)

/-- Settles O6: word by word, the 8 bytes of a word give it back and stand at its 8 places. -/
theorem byteImageReadsBack : Obligations.ByteImageReadsBack := fun prog =>
  ⟨programOfImage_imageOfProgram prog, length_imageOfProgram prog,
    fun _ _ hw _ hk => getElem?_imageOfProgram hw hk⟩

end Sys2Proof.Machine
end

section
/-! The memory controller (20_memory.md section 1) and the ALU (42_arithmetic.md). -/

namespace Sys2Proof.Machine

/-! ### Memory controller -/

/-- Reading another address after a write, in or out of bounds, answers as before. -/
theorem memRead_write_of_ne {m : Memory} {a b : Word} (v : Word) (h : b ≠ a) :
    memRead (Memory.write m a.toNat v) b = memRead m b := by
  have hne : b.toNat ≠ a.toNat := fun he => h (BitVec.eq_of_toNat_eq he)
  rw [memRead, memRead, Memory.read_write_of_ne v hne]

/-- Settles O7: the bounds check decides, and in bounds the laws of reading after a write hold. -/
theorem memoryControllerRoundTrip : Obligations.MemoryControllerRoundTrip := by
  intro m a v hwf
  constructor
  · intro (hin : InData a)
    refine ⟨memRead_of_inData hin, memRead_of_inData hin, Memory.write m a.toNat v, if_pos hin,
      ?_, Memory.write_wf v hwf (toNat_lt_of_inData hin), fun b hb => memRead_write_of_ne v hb⟩
    rw [memRead_of_inData hin, Memory.read_write v _ hwf, if_pos rfl]
  · intro (hout : ¬ InData a)
    exact ⟨memRead_of_outside hout, if_neg hout⟩

/-! ### ALU -/

/-- A result in range is answered exactly. -/
theorem narrow_of_inRange {op : BitVec 8} {a b : Word} {exact : Int} (h : InRange exact) :
    ∃ v : Word, narrow op a b exact = .ok v ∧ v.toInt = exact := by
  obtain ⟨-, hv⟩ | ⟨hout, -⟩ := narrow_cases op a b exact
  · exact hv
  · exact absurd h hout

/-- A result out of range is the overflow of the operation with its operands. -/
theorem narrow_of_outOfRange {op : BitVec 8} {a b : Word} {exact : Int} (h : ¬ InRange exact) :
    narrow op a b exact = .error (.overflow op a b) := if_neg h

/-- Settles O8: the three operations are the overflow law on their exact results. -/
theorem aluIsExactOrOverflows : Obligations.AluIsExactOrOverflows := fun _ _ _ =>
  ⟨⟨fun h => narrow_of_inRange h, fun h => narrow_of_outOfRange h⟩,
    ⟨fun h => narrow_of_inRange h, fun h => narrow_of_outOfRange h⟩,
    ⟨fun h => narrow_of_inRange h, fun h => narrow_of_outOfRange h⟩⟩

/-- The signed value of a word is 0 only for the word 0. -/
theorem toInt_eq_zero_iff (b : Word) : b.toInt = 0 ↔ b = 0 :=
  BitVec.toInt_inj (y := 0)

theorem inRange_toInt (a : Word) : InRange a.toInt := by
  have h1 := BitVec.le_toInt a
  have h2 := BitVec.toInt_lt (x := a)
  simp only [InRange, Config.intMin, Config.intMax]
  omega

/-- The one quotient that does not fit is `INT_MIN ÷ −1` (42_arithmetic.md R126): a divisor other
than 1 and -1 at least halves the dividend. -/
theorem inRange_tdiv_iff (a b : Word) (hb : b.toInt ≠ 0) :
    InRange (a.toInt.tdiv b.toInt) ↔ ¬ (a.toInt = -2147483648 ∧ b.toInt = -1) := by
  obtain ⟨h1, h2⟩ := inRange_toInt a
  simp only [InRange, Config.intMin, Config.intMax] at h1 h2 ⊢
  generalize a.toInt = x at *
  generalize b.toInt = y at *
  by_cases hone : y = 1
  · rw [hone, Int.tdiv_one]
    omega
  by_cases hneg : y = -1
  · rw [hneg, Int.tdiv_neg, Int.tdiv_one]
    omega
  · have hhalf : (x.tdiv y).natAbs ≤ x.natAbs / 2 := by
      rw [Int.natAbs_tdiv]
      exact Nat.div_le_div_left (by omega) (by omega)
    omega

/-- Division by a divisor other than 0 is the overflow law on the truncated quotient. -/
theorem aluDiv_of_ne_zero {op : BitVec 8} {a b : Word} (hb : b.toInt ≠ 0) :
    aluDiv op a b = narrow op a b (a.toInt.tdiv b.toInt) := if_neg hb

theorem aluDiv_of_eq_zero {op : BitVec 8} {a b : Word} (hb : b.toInt = 0) :
    aluDiv op a b = .error (.divideByZero a) := if_pos hb

/-- The remainder of the truncated quotient is smaller than the divisor. -/
theorem abs_tmod_lt (x : Int) {y : Int} (hy : y ≠ 0) : |x.tmod y| < |y| := by
  rw [Int.abs_eq_natAbs, Int.abs_eq_natAbs, Int.natAbs_tmod]
  exact_mod_cast Nat.mod_lt _ (Int.natAbs_pos.2 hy)

/-- The remainder of the truncated quotient is 0 or of the dividend's sign. -/
theorem tmod_sign (x y : Int) :
    x.tmod y = 0 ∨ (0 < x.tmod y ∧ 0 < x) ∨ (x.tmod y < 0 ∧ x < 0) := by
  have hsign := Int.sign_tmod x y
  split_ifs at hsign with hdvd
  · exact .inl (Int.sign_eq_zero_iff_zero.1 hsign)
  · rcases lt_trichotomy x 0 with hx | rfl | hx
    · rw [Int.sign_eq_neg_one_of_neg hx] at hsign
      exact .inr (.inr ⟨Int.sign_eq_neg_one_iff_neg.1 hsign, hx⟩)
    · exact absurd (dvd_zero y) hdvd
    · rw [Int.sign_eq_one_of_pos hx] at hsign
      exact .inr (.inl ⟨Int.sign_eq_one_iff_pos.1 hsign, hx⟩)

/-- Settles O9: quotient and remainder are those of the division truncated toward zero, and both
the remainder and the product lie between 0 and the dividend. -/
theorem divisionTruncatesTowardZero : Obligations.DivisionTruncatesTowardZero := by
  intro a b
  refine ⟨fun hb => aluDiv_of_eq_zero (hb ▸ rfl), fun ha hb => ?_, fun hb hfit => ?_⟩
  · have hb0 : b.toInt ≠ 0 := by omega
    rw [aluDiv_of_ne_zero hb0]
    exact narrow_of_outOfRange fun h => (inRange_tdiv_iff a b hb0).1 h ⟨ha, hb⟩
  · have hb0 : b.toInt ≠ 0 := fun h => hb ((toInt_eq_zero_iff b).1 h)
    obtain ⟨q, hq, hqv⟩ := narrow_of_inRange (op := 0x0B) (a := a) (b := b)
      ((inRange_tdiv_iff a b hb0).2 hfit)
    have hsum := Int.mul_tdiv_add_tmod a.toInt b.toInt
    have hsign := tmod_sign a.toInt b.toInt
    have hsmall : (a.toInt.tmod b.toInt).natAbs ≤ a.toInt.natAbs := by
      rw [Int.natAbs_tmod]
      exact Nat.mod_le _ _
    have ha := inRange_toInt a
    refine ⟨q, (aluDiv_of_ne_zero hb0).trans hq, a.toInt.tmod b.toInt, ?_,
      abs_tmod_lt a.toInt hb0, hsign, ?_, ?_⟩
    · rw [hqv, mul_comm, hsum]
    · rw [hqv, mul_comm, show b.toInt * a.toInt.tdiv b.toInt =
        a.toInt - a.toInt.tmod b.toInt by omega]
      simp only [InRange, Config.intMin, Config.intMax] at ha ⊢
      omega
    · simp only [InRange, Config.intMin, Config.intMax] at ha ⊢
      omega

end Sys2Proof.Machine
end

section
/-! From the execute phase's answer to the state after an instruction: one rule for each way an
instruction ends. The statements about single instructions go through these rules. -/

namespace Sys2Proof.Machine

/-! ### What the latch records (60_exceptions.md R151) -/

@[simp] theorem latchOf_outOfBounds (fopc : BitVec 8) (a : Word) :
    latchOf fopc (.outOfBounds a) = ⟨0x01, fopc, a, 0, 0⟩ := by
  simp [latchOf]
@[simp] theorem latchOf_overflow (fopc op : BitVec 8) (a b : Word) :
    latchOf fopc (.overflow op a b) = ⟨0x02, op, 0, a, b⟩ := by
  simp [latchOf]
@[simp] theorem latchOf_divideByZero (fopc : BitVec 8) (a : Word) :
    latchOf fopc (.divideByZero a) = ⟨0x04, 0x0B, 0, a, 0⟩ := by
  simp [latchOf, Opcode.byte]
@[simp] theorem latchOf_unknownOpcode (fopc op : BitVec 8) :
    latchOf fopc (.unknownOpcode op) = ⟨0x08, op, 0, 0, 0⟩ := by
  simp [latchOf]
@[simp] theorem latchOf_wrongOperandCount (fopc op : BitVec 8) :
    latchOf fopc (.wrongOperandCount op) = ⟨0x10, op, 0, 0, 0⟩ := by
  simp [latchOf]
@[simp] theorem latchOf_invalidRegister (fopc op : BitVec 8) (n : BitVec 4) :
    latchOf fopc (.invalidRegister op n) = ⟨0x20, op, n.setWidth 32, 0, 0⟩ := by
  simp [latchOf]

/-! ### Frames -/

/-- Taking a fault changes only the latch and `STATE` (60_exceptions.md R160). -/
theorem faultedWith_raise {op : BitVec 8} {f : FaultValue} {l : Latch} (hl : latchOf op f = l)
    (s : State) : FaultedWith l s (raise op f s) :=
  ⟨raise_engine s op f, hl, fun q => raise_reg s op f q,
    fun a => raise_cell s op f a, raise_prog s op f, raise_out s op f, raise_outPort s op f⟩

/-- A commit without a register write changes no register but `P`. -/
theorem sameRegistersBut_commit {e : Effect} (n : Word) (s : State) (h : e.regWrite = none) :
    SameRegistersBut [] s (commit e n s) := by
  intro q hq _
  rw [commit_reg s e n q hq, Effect.applyRegs, h]
  rfl

/-- A commit without a memory write changes no cell. -/
theorem sameMemory_commit {e : Effect} (n : Word) (s : State) (h : e.cellWrite = none) :
    SameMemory s (commit e n s) := by
  intro a
  rw [State.cell, commit_mem, Effect.applyMem, h]
  rfl

theorem writesRegister_commit (r : Reg) (v : Word) (s : State) :
    WritesRegister r v s (commit (Effect.ofReg r v) ((s.regs.set r v).get .P + 1) s) := by
  refine ⟨fun hr => ?_, ?_, fun q hq hne => ?_, sameMemory_commit _ s rfl, rfl, ⟨rfl, rfl⟩,
    List.append_nil _, rfl⟩
  · rw [commit_reg _ _ _ _ hr, applyRegs_ofReg, RegFile.get_set_same]
  · rw [commit_pc, RegFile.get_set]
    simp only [eq_comm (a := Reg.P)]
    rfl
  · rw [commit_reg _ _ _ _ hq, applyRegs_ofReg, RegFile.get_set_of_ne _ _ _ _ (by simpa using hne)]
    rfl

/-- Writing back the value a register holds moves only `P`. -/
theorem WritesRegister.setsPc_of_self {r : Reg} {s t : State}
    (h : WritesRegister r (s.reg r) s t) : SetsPc (s.reg .P + 1) s t := by
  obtain ⟨hreg, hpc, hregs, hmem, hengine, hlatch, hout⟩ := h
  refine ⟨?_, fun q hq _ => ?_, hmem, hengine, hlatch, hout⟩
  · by_cases hr : r = .P
    · rw [hpc, if_pos hr, hr]
    · rw [hpc, if_neg hr]
  · by_cases hqr : q = r
    · rw [hqr, hreg (hqr ▸ hq)]
    · exact hregs q hq (by simpa using hqr)

/-- An effect that does nothing but move `P`: a jump, or none. -/
theorem setsPc_commit {e : Effect} (n : Word) (s : State) (hreg : e.regWrite = none)
    (hcell : e.cellWrite = none) (hemit : e.emit = none) (hhalt : e.halt = false) :
    SetsPc n s (commit e n s) := by
  refine ⟨commit_pc s e n, sameRegistersBut_commit n s hreg, sameMemory_commit n s hcell, ?_,
    ⟨rfl, rfl⟩, ?_, hemit⟩
  · simp [hhalt]
  · simp [hemit]

theorem storesCell_commit {a : Word} (v : Word) {s : State} (hwf : Memory.wf s.mem = true) :
    StoresCell a.toNat v s (commit { cellWrite := some (a, v) } (s.reg .P + 1) s) := by
  refine ⟨?_, fun b hb => Memory.read_write_of_ne v hb, rfl, sameRegistersBut_commit _ s rfl, rfl,
    ⟨rfl, rfl⟩, List.append_nil _, rfl⟩
  exact (Memory.read_write v _ hwf).trans (if_pos rfl)

/-! ### Program counter update -/

/-- The value of `P` between the register write and the increment. -/
theorem toInt_get_set_pc (r : Reg) (v : Word) (s : State) :
    ((s.regs.set r v).get .P).toInt = pcBeforeIncrement r v.toInt s := by
  rw [RegFile.get_set, pcBeforeIncrement]
  simp only [eq_comm (a := Reg.P)]
  split <;> rfl

/-- A taken jump into the program goes to its target (40_step.md R99). -/
theorem nextPc_of_inside {op : BitVec 8} {t : Word} {s : State} (h : InProgram s t) :
    nextPc op (Effect.ofJump t) s = .ok t := if_pos h

/-- A taken jump out of the program faults (40_step.md R99). -/
theorem nextPc_of_outside {op : BitVec 8} {t : Word} {s : State} (h : ¬ InProgram s t) :
    nextPc op (Effect.ofJump t) s = .error (.outOfBounds t) := if_neg h

/-- Without a jump, `P` below `INT_MAX` is incremented (40_step.md R96). -/
theorem nextPc_of_ne_max {op : BitVec 8} {e : Effect} {s : State} (hj : e.jump = none)
    (hq : ((e.applyRegs s.regs).get .P).toInt ≠ 2147483647) :
    nextPc op e s = .ok ((e.applyRegs s.regs).get .P + 1) := by
  simp only [nextPc, hj]
  exact if_neg hq

/-- Without a jump, `P` at `INT_MAX` overflows (40_step.md R97). -/
theorem nextPc_of_max {op : BitVec 8} {e : Effect} {s : State} (hj : e.jump = none)
    (hq : ((e.applyRegs s.regs).get .P).toInt = 2147483647) :
    nextPc op e s = .error (.overflow op intMaxWord 1) := by
  rw [show intMaxWord = (e.applyRegs s.regs).get .P from (eq_intMax_of_toInt hq).symm]
  simp only [nextPc, hj]
  exact if_pos hq

/-! ### The ends of an instruction -/

section
variable {i : Instr} {s : State}

/-- A fault of the execute phase is latched under the instruction's opcode. -/
theorem exec_of_error {f : FaultValue} (h : executePhase i s = .error f) :
    exec i s = .next (raise i.opcode.byte f s) := by
  rw [exec_eq_finish, h, finish_error]

/-- A fault of the program counter update is latched under the instruction's opcode. -/
theorem exec_of_pcFault {e : Effect} {f : FaultValue} (h : executePhase i s = .ok e)
    (hpc : nextPc i.opcode.byte e s = .error f) :
    exec i s = .next (raise i.opcode.byte f s) := by
  rw [exec_eq_finish, h, finish_raise hpc]

/-- An effect with a next `P` is committed. -/
theorem exec_of_commit {e : Effect} {n : Word} (h : executePhase i s = .ok e)
    (hpc : nextPc i.opcode.byte e s = .ok n) : exec i s = .next (commit e n s) := by
  rw [exec_eq_finish, h, finish_commit hpc]

/-- A fault of the execute phase, as a frame. -/
theorem exec_faultedWith {f : FaultValue} {l : Latch} (h : executePhase i s = .error f)
    (hl : latchOf i.opcode.byte f = l) : ∃ t, exec i s = .next t ∧ FaultedWith l s t :=
  ⟨_, exec_of_error h, faultedWith_raise hl s⟩

/-- An instruction that writes neither a register nor `P` goes on to the next index. -/
theorem exec_of_advance {e : Effect} (h : executePhase i s = .ok e) (hj : e.jump = none)
    (hr : e.regWrite = none) (hp : (s.reg .P).toInt ≠ 2147483647) :
    exec i s = .next (commit e (s.reg .P + 1) s) := by
  have hregs : e.applyRegs s.regs = s.regs := by rw [Effect.applyRegs, hr]
  rw [← show (e.applyRegs s.regs).get .P = s.reg .P by rw [hregs]; rfl] at hp ⊢
  exact exec_of_commit h (nextPc_of_ne_max hj hp)

/-- At `P` of `INT_MAX` such an instruction overflows the increment. -/
theorem exec_of_advance_max {e : Effect} (h : executePhase i s = .ok e) (hj : e.jump = none)
    (hr : e.regWrite = none) (hp : (s.reg .P).toInt = 2147483647) :
    ∃ t, exec i s = .next t ∧ FaultedWith ⟨0x02, i.opcode.byte, 0, intMaxWord, 1⟩ s t := by
  have hregs : e.applyRegs s.regs = s.regs := by rw [Effect.applyRegs, hr]
  rw [← show (e.applyRegs s.regs).get .P = s.reg .P by rw [hregs]; rfl] at hp
  exact ⟨_, exec_of_pcFault h (nextPc_of_max hj hp),
    faultedWith_raise (latchOf_overflow _ _ _ _) s⟩

/-- An instruction that forms `v` for register `r`: the write and the advance of `P`, or the
overflow of the increment. -/
theorem exec_of_write {r : Reg} {v : Word} (h : executePhase i s = .ok (Effect.ofReg r v)) :
    (pcBeforeIncrement r v.toInt s ≠ 2147483647 →
      ∃ t, exec i s = .next t ∧ WritesRegister r v s t) ∧
    (pcBeforeIncrement r v.toInt s = 2147483647 →
      ∃ t, exec i s = .next t ∧ FaultedWith ⟨0x02, i.opcode.byte, 0, intMaxWord, 1⟩ s t) := by
  rw [← toInt_get_set_pc]
  exact ⟨fun hpc => ⟨_, exec_of_commit h (nextPc_of_ne_max rfl hpc), writesRegister_commit r v s⟩,
    fun hpc => ⟨_, exec_of_pcFault h (nextPc_of_max rfl hpc),
      faultedWith_raise (latchOf_overflow _ _ _ _) s⟩⟩

/-- A load into `r` from the address `a`. -/
theorem exec_of_load {r : Reg} {a : Word}
    (h : executePhase i s = (memRead s.mem a).map (Effect.ofReg r)) :
    (InData a → pcBeforeIncrement r (s.cell a.toNat).toInt s ≠ 2147483647 →
      ∃ t, exec i s = .next t ∧ WritesRegister r (s.cell a.toNat) s t) ∧
    (InData a → pcBeforeIncrement r (s.cell a.toNat).toInt s = 2147483647 →
      ∃ t, exec i s = .next t ∧ FaultedWith ⟨0x02, i.opcode.byte, 0, intMaxWord, 1⟩ s t) ∧
    (¬ InData a → ∃ t, exec i s = .next t ∧ FaultedWith ⟨0x01, i.opcode.byte, a, 0, 0⟩ s t) := by
  have hin (ha : InData a) : executePhase i s = .ok (Effect.ofReg r (s.cell a.toNat)) := by
    rw [h, memRead_of_inData ha]
    rfl
  refine ⟨fun ha => (exec_of_write (hin ha)).1, fun ha => (exec_of_write (hin ha)).2,
    fun ha => exec_faultedWith ?_ (latchOf_outOfBounds _ a)⟩
  rw [h, memRead_of_outside ha]
  rfl

/-- A store of `v` to the address `a`. -/
theorem exec_of_store {a v : Word} (h : executePhase i s = Effect.ofStore s.mem a v)
    (hwf : Memory.wf s.mem = true) :
    (InData a → (s.reg .P).toInt ≠ 2147483647 →
      ∃ t, exec i s = .next t ∧ StoresCell a.toNat v s t) ∧
    (InData a → (s.reg .P).toInt = 2147483647 →
      ∃ t, exec i s = .next t ∧ FaultedWith ⟨0x02, i.opcode.byte, 0, intMaxWord, 1⟩ s t) ∧
    (¬ InData a → ∃ t, exec i s = .next t ∧ FaultedWith ⟨0x01, i.opcode.byte, a, 0, 0⟩ s t) := by
  obtain ⟨hin, hok⟩ | ⟨hout, herr⟩ := ofStore_cases s.mem a v
  · rw [hok] at h
    exact ⟨fun _ hp => ⟨_, exec_of_advance h rfl rfl hp, storesCell_commit v hwf⟩,
      fun _ hp => exec_of_advance_max h rfl rfl hp, fun hout => absurd hin hout⟩
  · rw [herr] at h
    exact ⟨fun hin => absurd hin hout, fun hin => absurd hin hout,
      fun _ => exec_faultedWith h (latchOf_outOfBounds _ a)⟩

/-- An operation whose exact result goes to register `d` under the overflow law. -/
theorem exec_of_narrow {d : Reg} {a b : Word} {exact : Int}
    (h : executePhase i s = (narrow i.opcode.byte a b exact).map (Effect.ofReg d)) :
    (InRange exact → pcBeforeIncrement d exact s ≠ 2147483647 →
      ∃ t v, exec i s = .next t ∧ v.toInt = exact ∧ WritesRegister d v s t) ∧
    (InRange exact → pcBeforeIncrement d exact s = 2147483647 →
      ∃ t, exec i s = .next t ∧ FaultedWith ⟨0x02, i.opcode.byte, 0, intMaxWord, 1⟩ s t) ∧
    (¬ InRange exact →
      ∃ t, exec i s = .next t ∧ FaultedWith ⟨0x02, i.opcode.byte, 0, a, b⟩ s t) := by
  obtain ⟨hin, v, hok, rfl⟩ | ⟨hout, herr⟩ := narrow_cases i.opcode.byte a b exact
  · rw [hok] at h
    obtain ⟨hwrite, hmax⟩ := exec_of_write h
    refine ⟨fun _ hpc => ?_, fun _ hpc => hmax hpc, fun hout => absurd hin hout⟩
    obtain ⟨t, hexec, ht⟩ := hwrite hpc
    exact ⟨t, v, hexec, rfl, ht⟩
  · rw [herr] at h
    exact ⟨fun hin => absurd hin hout, fun hin => absurd hin hout,
      fun _ => exec_faultedWith h (latchOf_overflow _ _ a b)⟩

/-- A jump taken to `t`. -/
theorem exec_of_jump {t : Word} (h : executePhase i s = .ok (Effect.ofJump t)) :
    (InProgram s t → ∃ u, exec i s = .next u ∧ SetsPc t s u) ∧
    (¬ InProgram s t → ∃ u, exec i s = .next u ∧ FaultedWith ⟨0x01, i.opcode.byte, t, 0, 0⟩ s u) :=
  ⟨fun ht => ⟨_, exec_of_commit h (nextPc_of_inside ht), setsPc_commit t s rfl rfl rfl rfl⟩,
    fun ht => ⟨_, exec_of_pcFault h (nextPc_of_outside ht),
      faultedWith_raise (latchOf_outOfBounds _ t) s⟩⟩

/-- A jump not taken: its target is not looked at (43_jumps.md R136). -/
theorem exec_of_noJump (h : executePhase i s = .ok {}) :
    ((s.reg .P).toInt ≠ 2147483647 → ∃ t, exec i s = .next t ∧ SetsPc (s.reg .P + 1) s t) ∧
    ((s.reg .P).toInt = 2147483647 →
      ∃ t, exec i s = .next t ∧ FaultedWith ⟨0x02, i.opcode.byte, 0, intMaxWord, 1⟩ s t) :=
  ⟨fun hp => ⟨_, exec_of_advance h rfl rfl hp, setsPc_commit _ s rfl rfl rfl rfl⟩,
    fun hp => exec_of_advance_max h rfl rfl hp⟩

end

/-! ### The execute phase of a division and of a conditional jump -/

theorem executePhase_div_of_ne_zero {a b : Reg} (d : Reg) {s : State}
    (hb : (s.reg b).toInt ≠ 0) :
    executePhase (.div a b d) s =
      (narrow 0x0B (s.reg a) (s.reg b) ((s.reg a).toInt.tdiv (s.reg b).toInt)).map
        (Effect.ofReg d) := by
  rw [executePhase, aluDiv_of_ne_zero hb]
  rfl

theorem executePhase_div_of_eq_zero (a : Reg) {b : Reg} (d : Reg) {s : State}
    (hb : (s.reg b).toInt = 0) :
    executePhase (.div a b d) s = .error (.divideByZero (s.reg a)) := by
  rw [executePhase, aluDiv_of_eq_zero hb]
  rfl

theorem executePhase_jz_of_eq_zero {r : Reg} (t : Word) {s : State} (h : s.reg r = 0) :
    executePhase (.jz r t) s = .ok (Effect.ofJump t) := by
  simp [executePhase, aluIsZero, jumpWhen, h]

theorem executePhase_jz_of_ne_zero {r : Reg} (t : Word) {s : State} (h : s.reg r ≠ 0) :
    executePhase (.jz r t) s = .ok {} := by
  have hne : (s.reg r).toInt ≠ 0 := mt (toInt_eq_zero_iff _).1 h
  simp [executePhase, aluIsZero, jumpWhen, hne]

theorem executePhase_jlt_of_lt {a b : Reg} (t : Word) {s : State}
    (h : (s.reg a).toInt < (s.reg b).toInt) :
    executePhase (.jlt a b t) s = .ok (Effect.ofJump t) := by
  simp [executePhase, aluLess, jumpWhen, h]

theorem executePhase_jlt_of_not_lt {a b : Reg} (t : Word) {s : State}
    (h : ¬ (s.reg a).toInt < (s.reg b).toInt) : executePhase (.jlt a b t) s = .ok {} := by
  simp only [executePhase, aluLess, jumpWhen, decide_eq_false h]
  rfl

end Sys2Proof.Machine
end

section
/-! Obligations about single instructions (41_load_store_move.md, 42_arithmetic.md, 43_jumps.md,
44_print_end.md): the encoding, then the rule for the way the instruction ends. -/

namespace Sys2Proof.Machine

/-- The encoding of an instruction, in both directions. -/
theorem encode_and_decode {i : Instr} {w : InstrWord} (h : encode i = w) :
    encode i = w ∧ decode w = .ok i :=
  ⟨h, h ▸ decodeOfEncodeIsTheInstruction i⟩

/-- A cell that is not listed reads 0 (10_state.md R26). -/
theorem Memory.read_of_not_listed {m : Memory} {a : Nat} (h : ∀ u, (a, u) ∉ m) :
    Memory.read m a = 0 := by
  induction m with
  | nil => rfl
  | cons c m ih =>
    obtain ⟨b, u⟩ := c
    have hab : a ≠ b := fun hab => h u (hab ▸ List.mem_cons_self)
    rw [Memory.read_cons, if_neg hab]
    exact ih fun v hv => h v (List.mem_cons_of_mem _ hv)

/-! ### Loads, stores and moves -/

/-- Settles O10: a load from the immediate address. -/
theorem loadaLoadsTheAddressedCell : Obligations.LoadaLoadsTheAddressedCell := fun _ _ _ =>
  ⟨encode_and_decode rfl, rfl, Memory.read_of_not_listed, exec_of_load rfl⟩

/-- Settles O11: a load from the address `A` holds at the start of the step. -/
theorem loadLoadsTheCellAddressedByA : Obligations.LoadLoadsTheCellAddressedByA := fun _ _ =>
  ⟨encode_and_decode rfl, rfl, rfl, exec_of_load rfl⟩

/-- Settles O12: a register write of the immediate. -/
theorem loadiLoadsTheImmediate : Obligations.LoadiLoadsTheImmediate := fun _ _ _ =>
  ⟨encode_and_decode rfl, rfl, rfl, exec_of_write rfl⟩

/-- Settles O13: a store to the immediate address. -/
theorem storeaStoresToTheAddressedCell : Obligations.StoreaStoresToTheAddressedCell :=
  fun _ _ _ hwf => ⟨encode_and_decode rfl, rfl, exec_of_store rfl hwf⟩

/-- Settles O14: a store to the address in `A`. -/
theorem storeStoresToTheCellAddressedByA : Obligations.StoreStoresToTheCellAddressedByA :=
  fun _ _ hwf => ⟨rfl, encode_and_decode rfl, rfl, exec_of_store rfl hwf⟩

/-- Settles O15: a register write of the source's value, which moves only `P` where source and
destination are one register. -/
theorem moveCopiesFirstToSecond : Obligations.MoveCopiesFirstToSecond := by
  intro src dst s v
  obtain ⟨hwrite, hmax⟩ := exec_of_write (i := .move src dst) (s := s) rfl
  refine ⟨encode_and_decode rfl, rfl, fun hpc => ?_, hmax⟩
  obtain ⟨t, hexec, ht⟩ := hwrite hpc
  refine ⟨t, hexec, ht, ?_⟩
  rintro rfl
  exact ht.setsPc_of_self

/-! ### Arithmetic -/

/-- Settles O16: the overflow law on the exact sum with the immediate. -/
theorem addiAddsTheImmediate : Obligations.AddiAddsTheImmediate := fun _ _ _ =>
  ⟨encode_and_decode rfl, rfl, exec_of_narrow rfl⟩

/-- Settles O17: the overflow law on the exact sum. -/
theorem addAddsTwoRegisters : Obligations.AddAddsTwoRegisters := fun _ _ _ _ =>
  ⟨encode_and_decode rfl, rfl, exec_of_narrow rfl⟩

/-- Settles O18: the overflow law on the exact difference. -/
theorem subSubtractsTwoRegisters : Obligations.SubSubtractsTwoRegisters := fun _ _ _ _ =>
  ⟨encode_and_decode rfl, rfl, exec_of_narrow rfl⟩

/-- Settles O19: the overflow law on the exact product. -/
theorem mulMultipliesTwoRegisters : Obligations.MulMultipliesTwoRegisters := fun _ _ _ _ =>
  ⟨encode_and_decode rfl, rfl, exec_of_narrow rfl⟩

/-- Settles O20: a divisor other than 0 is the overflow law on the quotient, which fits unless it is
`INT_MIN ÷ −1`. -/
theorem divDividesTwoRegisters : Obligations.DivDividesTwoRegisters := by
  intro a b d s x y tooLarge
  have hzero (hy : y = 0) := exec_faultedWith (executePhase_div_of_eq_zero a d hy)
    (latchOf_divideByZero _ _)
  refine ⟨encode_and_decode rfl, rfl, ?_⟩
  by_cases hy : y = 0
  · have hsmall : ¬ tooLarge := fun hlarge => by simp [tooLarge, hy] at hlarge
    exact ⟨fun hne => absurd hy hne, fun hne => absurd hy hne, fun hlarge => absurd hlarge hsmall,
      hzero⟩
  · have hfit : InRange (x.tdiv y) ↔ ¬ tooLarge := inRange_tdiv_iff _ _ hy
    obtain ⟨hwrite, hmax, hover⟩ := exec_of_narrow (executePhase_div_of_ne_zero (a := a) d hy)
    exact ⟨fun _ hsmall => hwrite (hfit.2 hsmall), fun _ hsmall => hmax (hfit.2 hsmall),
      fun hlarge => hover fun hin => hfit.1 hin hlarge, hzero⟩

/-! ### Jumps -/

/-- Settles O21: a jump always taken, to the immediate. -/
theorem jmpJumpsToTheImmediate : Obligations.JmpJumpsToTheImmediate := fun _ _ =>
  ⟨encode_and_decode rfl, rfl, exec_of_jump rfl⟩

/-- Settles O22: a jump always taken, to the register's value. -/
theorem jmprJumpsToTheRegister : Obligations.JmprJumpsToTheRegister := fun r _ =>
  ⟨encode_and_decode rfl, rfl, RegFile.get_reset r, exec_of_jump rfl⟩

/-- Settles O23: a jump taken at 0, else an advance. -/
theorem jzJumpsIfZero : Obligations.JzJumpsIfZero := fun _ target _ =>
  ⟨encode_and_decode rfl, rfl,
    fun hz => (exec_of_jump (executePhase_jz_of_eq_zero target hz)).1,
    fun hz => (exec_of_jump (executePhase_jz_of_eq_zero target hz)).2,
    fun hz => (exec_of_noJump (executePhase_jz_of_ne_zero target hz)).1,
    fun hz => (exec_of_noJump (executePhase_jz_of_ne_zero target hz)).2⟩

/-- Settles O24: a jump taken below, signed, else an advance. -/
theorem jltJumpsIfLess : Obligations.JltJumpsIfLess := fun _ _ target _ =>
  ⟨encode_and_decode rfl, rfl,
    fun hlt => (exec_of_jump (executePhase_jlt_of_lt target hlt)).1,
    fun hlt => (exec_of_jump (executePhase_jlt_of_lt target hlt)).2,
    fun hlt => (exec_of_noJump (executePhase_jlt_of_not_lt target hlt)).1,
    fun hlt => (exec_of_noJump (executePhase_jlt_of_not_lt target hlt)).2⟩

/-! ### PRINT and END -/

/-- Settles O25: an advance that emits. -/
theorem printEmitsTheRegister : Obligations.PrintEmitsTheRegister := fun r s =>
  ⟨encode_and_decode rfl, rfl,
    fun hp => ⟨_, exec_of_advance (i := .print r) rfl rfl rfl hp, rfl, rfl, rfl, rfl, rfl,
      sameRegistersBut_commit _ s rfl, sameMemory_commit _ s rfl, rfl, rfl, rfl⟩,
    fun hp => exec_of_advance_max (i := .print r) rfl rfl rfl hp⟩

/-- END has one word: a word that decodes to it is its encoding, and its encoding decodes to it. -/
theorem decode_eq_endRun_iff (w : InstrWord) : decode w = .ok .endRun ↔ w = 0x1100000000000000 :=
  ⟨fun h => (decodedWordIsTheEncoding w .endRun h).symm,
    fun h => h ▸ decodeOfEncodeIsTheInstruction .endRun⟩

/-- In a halted state there is no step: `HaltedNormal` (40_step.md R90). -/
theorem step_of_haltedNormal {s : State} (h : s.engine = .haltedNormal) :
    step s = .fault .haltedNormal := by
  simp [step, beforeExecute, h]

/-- In a halted state there is no step: `HaltedFault` (40_step.md R90). -/
theorem step_of_haltedFault {s : State} (h : s.engine = .haltedFault) :
    step s = .fault .haltedFault := by
  simp [step, beforeExecute, h]

/-- Settles O26: an advance that halts. -/
theorem endHaltsNormally : Obligations.EndHaltsNormally := fun s =>
  ⟨decode_eq_endRun_iff,
    fun hp => ⟨_, exec_of_advance (i := .endRun) rfl rfl rfl hp, rfl, rfl,
      sameRegistersBut_commit _ s rfl, sameMemory_commit _ s rfl, ⟨rfl, rfl⟩,
      ⟨List.append_nil _, rfl⟩, step_of_haltedNormal rfl⟩,
    fun hp => exec_of_advance_max (i := .endRun) rfl rfl rfl hp⟩

/-- Settles O31: the two halted states, each by its rule. -/
theorem haltedStepIsAStop : Obligations.HaltedStepIsAStop := fun _ =>
  ⟨step_of_haltedNormal, step_of_haltedFault⟩

end Sys2Proof.Machine
end

section
/-! What an instruction can do, in the terms of the spec's tables (`destination`, `dataAddress`,
`takenTarget`, `exactResult`, `resultValue`): said once, for the answer of the execute phase, for
the program counter update and for the whole instruction. The statements about every step are read off
from here. -/

namespace Sys2Proof.Machine

/-! ### The execute phase -/

/-- The answers an instruction's execute phase can give: three faults, each with its origin, and six
effects. -/
inductive PhaseOutcome (i : Instr) (s : State) : Except FaultValue Effect → Prop where
  | badAddress {a : Word} (haddr : dataAddress i s = some a) (hout : ¬ InData a) :
      PhaseOutcome i s (.error (.outOfBounds a))
  | outOfRange {x : Int} {a b : Word} (hx : exactResult i s = some x) (hout : ¬ InRange x)
      (hops : aluOperands i s = some (a, b)) :
      PhaseOutcome i s (.error (.overflow i.opcode.byte a b))
  | zeroDivisor {a b d : Reg} (hi : i = .div a b d) (hb : s.reg b = 0) :
      PhaseOutcome i s (.error (.divideByZero (s.reg a)))
  | write {r : Reg} {v : Word} (hdest : destination i = some r)
      (hres : resultValue i s = some v.toInt) : PhaseOutcome i s (.ok (Effect.ofReg r v))
  | store {a : Word} {r : Reg} (haddr : dataAddress i s = some a) (hin : InData a)
      (hi : i = .storea r a ∨ i = .store r) :
      PhaseOutcome i s (.ok { cellWrite := some (a, s.reg r) })
  | jump {t : Word} (htgt : takenTarget i s = some t) : PhaseOutcome i s (.ok (Effect.ofJump t))
  | noJump (hdest : destination i = none) (htgt : takenTarget i s = none) :
      PhaseOutcome i s (.ok {})
  | emit {r : Reg} (hi : i = .print r) : PhaseOutcome i s (.ok { emit := some (s.reg r) })
  | halt (hi : i = .endRun) : PhaseOutcome i s (.ok { halt := true })

section
variable {i : Instr} {s : State}

/-- A load answers the cell, or the fault of its address. -/
theorem phaseOutcome_load {r : Reg} {a : Word} (haddr : dataAddress i s = some a)
    (hdest : destination i = some r)
    (hres : InData a → resultValue i s = some (s.cell a.toNat).toInt) :
    PhaseOutcome i s ((memRead s.mem a).map (Effect.ofReg r)) := by
  by_cases ha : InData a
  · rw [memRead_of_inData ha]
    exact .write hdest (hres ha)
  · rw [memRead_of_outside ha]
    exact .badAddress haddr ha

/-- A store answers the write of its cell, or the fault of its address. -/
theorem phaseOutcome_store {r : Reg} {a : Word} (haddr : dataAddress i s = some a)
    (hi : i = .storea r a ∨ i = .store r) :
    PhaseOutcome i s (Effect.ofStore s.mem a (s.reg r)) := by
  obtain ⟨hin, hok⟩ | ⟨hout, herr⟩ := ofStore_cases s.mem a (s.reg r)
  · rw [hok]
    exact .store haddr hin hi
  · rw [herr]
    exact .badAddress haddr hout

/-- An arithmetic instruction answers its exact result, or the overflow with its operands. -/
theorem phaseOutcome_narrow {d : Reg} {a b : Word} {x : Int} (hx : exactResult i s = some x)
    (hops : aluOperands i s = some (a, b)) (hdest : destination i = some d)
    (hres : resultValue i s = exactResult i s) :
    PhaseOutcome i s ((narrow i.opcode.byte a b x).map (Effect.ofReg d)) := by
  obtain ⟨-, v, hok, rfl⟩ | ⟨hout, herr⟩ := narrow_cases i.opcode.byte a b x
  · rw [hok]
    exact .write hdest (hres.trans hx)
  · rw [herr]
    exact .outOfRange hx hout hops

end

theorem exactResult_div_of_ne_zero {a b : Reg} (d : Reg) {s : State} (hb : s.reg b ≠ 0) :
    exactResult (.div a b d) s = some ((s.reg a).toInt.tdiv (s.reg b).toInt) := if_neg hb

/-- Every instruction's execute phase answers as the tables say. -/
theorem phaseOutcome_executePhase (i : Instr) (s : State) :
    PhaseOutcome i s (executePhase i s) := by
  cases i with
  | loada r a => exact phaseOutcome_load rfl rfl fun ha => if_pos ha
  | load r => exact phaseOutcome_load rfl rfl fun ha => if_pos ha
  | loadi r v => exact .write rfl rfl
  | storea r a => exact phaseOutcome_store rfl (.inl rfl)
  | store r => exact phaseOutcome_store rfl (.inr rfl)
  | move a d => exact .write rfl rfl
  | addi r v => exact phaseOutcome_narrow rfl rfl rfl rfl
  | add a b d => exact phaseOutcome_narrow rfl rfl rfl rfl
  | sub a b d => exact phaseOutcome_narrow rfl rfl rfl rfl
  | mul a b d => exact phaseOutcome_narrow rfl rfl rfl rfl
  | div a b d =>
    by_cases hb : s.reg b = 0
    · rw [executePhase_div_of_eq_zero a d ((toInt_eq_zero_iff _).2 hb)]
      exact .zeroDivisor rfl hb
    · rw [executePhase_div_of_ne_zero d (mt (toInt_eq_zero_iff _).1 hb)]
      exact phaseOutcome_narrow (exactResult_div_of_ne_zero d hb) rfl rfl rfl
  | jmp t => exact .jump rfl
  | jmpr r => exact .jump rfl
  | jz r t =>
    by_cases hz : s.reg r = 0
    · rw [executePhase_jz_of_eq_zero t hz]
      exact .jump (if_pos hz)
    · rw [executePhase_jz_of_ne_zero t hz]
      exact .noJump rfl (if_neg hz)
  | jlt a b t =>
    by_cases hlt : (s.reg a).toInt < (s.reg b).toInt
    · rw [executePhase_jlt_of_lt t hlt]
      exact .jump (if_pos hlt)
    · rw [executePhase_jlt_of_not_lt t hlt]
      exact .noJump rfl (if_neg hlt)
  | print r => exact .emit rfl
  | endRun => exact .halt rfl

/-! ### What an effect holds -/

namespace PhaseOutcome

variable {i : Instr} {s : State} {e : Effect}

theorem regWrite_cases (h : PhaseOutcome i s (.ok e)) :
    e.regWrite = none ∨ ∃ r v, destination i = some r ∧ e.regWrite = some (r, v) := by
  cases h with
  | write hdest _ => exact .inr ⟨_, _, hdest, rfl⟩
  | store _ _ _ | jump _ | noJump _ _ | emit _ | halt _ => exact .inl rfl

theorem cellWrite_cases (h : PhaseOutcome i s (.ok e)) :
    e.cellWrite = none ∨ ∃ a r, dataAddress i s = some a ∧ InData a ∧
      (i = .storea r a ∨ i = .store r) ∧ e.cellWrite = some (a, s.reg r) := by
  cases h with
  | store haddr hin hi => exact .inr ⟨_, _, haddr, hin, hi, rfl⟩
  | write _ _ | jump _ | noJump _ _ | emit _ | halt _ => exact .inl rfl

theorem emit_cases (h : PhaseOutcome i s (.ok e)) :
    e.emit = none ∨ ∃ r, i = .print r ∧ e.emit = some (s.reg r) ∧ e.halt = false := by
  cases h with
  | emit hi => exact .inr ⟨_, hi, rfl, rfl⟩
  | write _ _ | store _ _ _ | jump _ | noJump _ _ | halt _ => exact .inl rfl

theorem halt_cases (h : PhaseOutcome i s (.ok e)) :
    e.halt = false ∨ (i = .endRun ∧ e.halt = true ∧ e.emit = none) := by
  cases h with
  | halt hi => exact .inr ⟨hi, rfl, rfl⟩
  | write _ _ | store _ _ _ | jump _ | noJump _ _ | emit _ => exact .inl rfl

end PhaseOutcome

/-! ### The program counter update -/

/-- An instruction with a destination takes no jump. -/
theorem takenTarget_of_destination {i : Instr} {r : Reg} (h : destination i = some r) (s : State) :
    takenTarget i s = none := by
  cases i <;> simp_all [destination, takenTarget]

/-- The value the increment starts from (40_step.md R96): what the instruction writes into `P`, or
`P`. -/
def pcSource (i : Instr) (s : State) : Option Int :=
  if destination i = some .P then resultValue i s else some (s.reg .P).toInt

theorem pcSource_of_destination_none {i : Instr} (h : destination i = none) (s : State) :
    pcSource i s = some (s.reg .P).toInt := by
  simp [pcSource, h]

namespace PhaseOutcome

variable {i : Instr} {s : State} {e : Effect}

/-- The jump of an effect is the table's. -/
theorem jump_eq (h : PhaseOutcome i s (.ok e)) : e.jump = takenTarget i s := by
  cases h with
  | write hdest _ => exact (takenTarget_of_destination hdest s).symm
  | store _ _ hi =>
    obtain rfl | rfl := hi
    · rfl
    · rfl
  | jump htgt => exact htgt.symm
  | noJump _ htgt => exact htgt.symm
  | emit hi => subst hi; rfl
  | halt hi => subst hi; rfl

/-- Without a jump, `P` after the register write is the table's source of the increment. -/
theorem pcSource_eq (h : PhaseOutcome i s (.ok e)) (hj : e.jump = none) :
    pcSource i s = some ((e.applyRegs s.regs).get .P).toInt := by
  cases h with
  | @write r v hdest hres =>
    by_cases hr : r = .P
    · subst hr
      rw [pcSource, if_pos hdest, hres, applyRegs_ofReg, RegFile.get_set_same]
    · rw [pcSource, hdest, if_neg (by simpa using hr), applyRegs_ofReg,
        RegFile.get_set_of_ne _ _ _ _ (Ne.symm hr)]
      rfl
  | store _ _ hi =>
    obtain rfl | rfl := hi
    · rfl
    · rfl
  | jump _ => simp at hj
  | noJump hdest _ => exact pcSource_of_destination_none hdest s
  | emit hi => subst hi; rfl
  | halt hi => subst hi; rfl

end PhaseOutcome

/-! ### The whole instruction -/

/-- The next `P` of a completed instruction: the target of its taken jump, inside the program, or
one more than the source of the increment (40_step.md R96, R99). -/
def PcAfter (i : Instr) (s : State) (n : Word) : Prop :=
  (takenTarget i s = some n ∧ InProgram s n) ∨
  (takenTarget i s = none ∧ ∃ q, pcSource i s = some q ∧ n.toInt = q + 1)

/-- All that an instruction can do: a fault of its execute phase, a bad jump target, the overflow of
the increment, or the commit of its effect. -/
theorem exec_cases {i : Instr} {s t : State} (h : exec i s = .next t) :
    (∃ f, PhaseOutcome i s (.error f) ∧ t = raise i.opcode.byte f s) ∨
    (∃ d, takenTarget i s = some d ∧ ¬ InProgram s d ∧
      t = raise i.opcode.byte (.outOfBounds d) s) ∨
    (pcSource i s = some 2147483647 ∧
      t = raise i.opcode.byte (.overflow i.opcode.byte intMaxWord 1) s) ∨
    (∃ e n, PhaseOutcome i s (.ok e) ∧ PcAfter i s n ∧ t = commit e n s) := by
  have hphase := phaseOutcome_executePhase i s
  rw [exec_eq_finish, Host.Outcome.next.injEq] at h
  obtain ⟨f, hans, hfin⟩ | ⟨e, f, hans, hpc, hfin⟩ | ⟨e, n, hans, hpc, hfin⟩ :=
    finish_cases i.opcode.byte (executePhase i s) s
  · exact .inl ⟨f, hans ▸ hphase, h.symm.trans hfin⟩
  all_goals
    rw [hans] at hphase
    rw [hfin] at h
    have hjump := hphase.jump_eq
    obtain ⟨d, hj, hd, hnext⟩ | ⟨d, hj, hd, hnext⟩ | ⟨q, hj, hq, hmax, hnext⟩ |
      ⟨q, hj, hq, hmax, hnext⟩ := nextPc_cases i.opcode.byte e s
    all_goals
      rw [hpc] at hnext
      cases hnext
  · exact .inr (.inl ⟨d, hjump ▸ hj, hd, h.symm⟩)
  · refine .inr (.inr (.inl ⟨?_, ?_⟩))
    · rw [hphase.pcSource_eq hj, ← hq, hmax]
      rfl
    · rw [← h, eq_intMax_of_toInt hmax]
      rfl
  · exact .inr (.inr (.inr ⟨e, _, hphase, .inl ⟨hjump ▸ hj, hd⟩, h.symm⟩))
  · refine .inr (.inr (.inr ⟨e, _, hphase, .inr ⟨hjump ▸ hj, q.toInt, ?_, toInt_add_one hmax⟩,
      h.symm⟩))
    rw [hphase.pcSource_eq hj, hq]

/-! ### Each origin of a fault raises it -/

section
variable {i : Instr} {s : State}

/-- A data address out of bounds faults with the address (60_exceptions.md R152). -/
theorem executePhase_of_badAddress {a : Word} (haddr : dataAddress i s = some a)
    (hout : ¬ InData a) : executePhase i s = .error (.outOfBounds a) := by
  have hread := memRead_of_outside (m := s.mem) hout
  have hstore (r : Reg) : Effect.ofStore s.mem a (s.reg r) = .error (.outOfBounds a) := by
    obtain ⟨hin, -⟩ | ⟨-, herr⟩ := ofStore_cases s.mem a (s.reg r)
    · exact absurd hin hout
    · exact herr
  cases i with
  | loada r b => cases haddr; exact congrArg (Except.map _) hread
  | load r => cases haddr; exact congrArg (Except.map _) hread
  | storea r b => cases haddr; exact hstore r
  | store r => cases haddr; exact hstore r
  | _ => cases haddr

/-- An exact result out of range faults with the operands (60_exceptions.md R153). -/
theorem executePhase_of_outOfRange {x : Int} (hx : exactResult i s = some x)
    (hout : ¬ InRange x) : ∃ a b, aluOperands i s = some (a, b) ∧
      executePhase i s = .error (.overflow i.opcode.byte a b) := by
  have hfault (op : BitVec 8) (a b : Word) (d : Reg) :
      (narrow op a b x).map (Effect.ofReg d) = .error (.overflow op a b) :=
    congrArg (Except.map _) (narrow_of_outOfRange hout)
  cases i with
  | addi r v => cases hx; exact ⟨_, _, rfl, hfault _ _ _ r⟩
  | add a b d => cases hx; exact ⟨_, _, rfl, hfault _ _ _ d⟩
  | sub a b d => cases hx; exact ⟨_, _, rfl, hfault _ _ _ d⟩
  | mul a b d => cases hx; exact ⟨_, _, rfl, hfault _ _ _ d⟩
  | div a b d =>
    have hb : s.reg b ≠ 0 := fun hb => by simp [exactResult, hb] at hx
    rw [exactResult_div_of_ne_zero d hb] at hx
    cases hx
    refine ⟨_, _, rfl, ?_⟩
    rw [executePhase_div_of_ne_zero d (mt (toInt_eq_zero_iff _).1 hb)]
    exact hfault _ _ _ d
  | _ => cases hx

/-- A taken jump's effect is the jump. -/
theorem executePhase_of_takenTarget {t : Word} (htgt : takenTarget i s = some t) :
    executePhase i s = .ok (Effect.ofJump t) := by
  cases i with
  | jmp d => cases htgt; rfl
  | jmpr r => cases htgt; rfl
  | jz r d =>
    obtain ⟨hz, rfl⟩ : s.reg r = 0 ∧ d = t := by simpa [takenTarget] using htgt
    exact executePhase_jz_of_eq_zero d hz
  | jlt a b d =>
    obtain ⟨hlt, rfl⟩ : (s.reg a).toInt < (s.reg b).toInt ∧ d = t := by
      simpa [takenTarget] using htgt
    exact executePhase_jlt_of_lt d hlt
  | _ => cases htgt

/-- A load from a bad address forms no value. -/
theorem resultValue_of_badAddress {a : Word} {r : Reg} (haddr : dataAddress i s = some a)
    (hout : ¬ InData a) (hdest : destination i = some r) : resultValue i s = none := by
  cases i with
  | loada _ _ | load _ => cases haddr; exact if_neg hout
  | storea _ _ | store _ => cases hdest
  | _ => cases haddr

/-- The value an arithmetic instruction forms is its exact result. -/
theorem resultValue_of_exactResult {x : Int} (hx : exactResult i s = some x) :
    resultValue i s = some x := by
  cases i with
  | loada _ _ | load _ | loadi _ _ | move _ _ => cases hx
  | _ => exact hx

/-- A formed value in range is written to the destination. -/
theorem executePhase_of_resultValue {r : Reg} {x : Int} (hdest : destination i = some r)
    (hres : resultValue i s = some x) (hx : InRange x) :
    ∃ v : Word, executePhase i s = .ok (Effect.ofReg r v) ∧ v.toInt = x := by
  have hphase := phaseOutcome_executePhase i s
  generalize executePhase i s = answer at hphase ⊢
  cases hphase with
  | badAddress haddr hout => rw [resultValue_of_badAddress haddr hout hdest] at hres; cases hres
  | outOfRange hx' hout _ =>
    rw [resultValue_of_exactResult hx'] at hres
    cases hres
    exact absurd hx hout
  | zeroDivisor hi hb => subst hi; simp [resultValue, exactResult, hb] at hres
  | write hdest' hres' =>
    cases hdest.symm.trans hdest'
    exact ⟨_, rfl, Option.some.inj (hres'.symm.trans hres)⟩
  | store _ _ hi =>
    obtain rfl | rfl := hi
    · cases hdest
    · cases hdest
  | jump htgt => rw [takenTarget_of_destination hdest] at htgt; cases htgt
  | noJump hnone _ => rw [hdest] at hnone; cases hnone
  | emit hi => subst hi; cases hdest
  | halt hi => subst hi; cases hdest

end

end Sys2Proof.Machine
end

section
/-! Obligations about the phases before the execute phase (40_step.md sections 1 to 3): the fetch
and its bounds check, and the decode with its three faults. -/

namespace Sys2Proof.Machine

/-! ### Fetch and decode -/

/-- The word at `P` that decodes is the instruction fetched. -/
theorem fetchInstr_of_decode {s : State} {w : InstrWord} {i : Instr} (hw : fetchWord s = .ok w)
    (hi : decode w = .ok i) : fetchInstr s = .ok i :=
  (fetchInstr_eq_ok_iff s i).2 ⟨w, hw, hi⟩

/-- The word at `P` that does not decode is the decode fault. -/
theorem fetchInstr_of_decode_error {s : State} {w : InstrWord} {d : DecodeFault}
    (hw : fetchWord s = .ok w) (hd : decode w = .error d) :
    fetchInstr s = .error (faultOfDecode d) := by
  simp [fetchInstr, hw, decodeWord, hd, bind, Except.bind, Except.mapError]

/-- An index outside the program is the fault of the fetch check. -/
theorem fetchInstr_of_outside {s : State} (h : ¬ InProgram s (s.reg .P)) :
    fetchInstr s = .error (.outOfBounds (s.reg .P)) := by
  obtain ⟨-, hin, -, -⟩ | ⟨-, hw⟩ := fetchWord_cases s
  · exact absurd hin h
  · simp [fetchInstr, hw, bind, Except.bind]

/-- Where an instruction is fetched, `P` is an index of the program. -/
theorem inProgram_of_fetchInstr {s : State} {i : Instr} (h : fetchInstr s = .ok i) :
    InProgram s (s.reg .P) := by
  by_contra hout
  simp [fetchInstr_of_outside hout] at h

/-- A fault before the execute phase is that of the fetch check or of the decoder. -/
theorem fetchInstr_error_cases {s : State} {f : FaultValue} (h : fetchInstr s = .error f) :
    (¬ InProgram s (s.reg .P) ∧ f = .outOfBounds (s.reg .P)) ∨
    (InProgram s (s.reg .P) ∧ ∃ w d, decode w = .error d ∧ f = faultOfDecode d) := by
  obtain ⟨w, hin, -, hw⟩ | ⟨hout, -⟩ := fetchWord_cases s
  · right
    refine ⟨hin, w, ?_⟩
    cases hd : decode w with
    | ok i => simp [fetchInstr_of_decode hw hd] at h
    | error d =>
      rw [fetchInstr_of_decode_error hw hd] at h
      cases h
      exact ⟨d, rfl, rfl⟩
  · rw [fetchInstr_of_outside hout] at h
    cases h
    exact .inl ⟨hout, rfl⟩

/-- The fault a step takes before the execute phase, as a frame. -/
theorem step_faultedWith {s : State} {f : FaultValue} {l : Latch} (hrun : s.engine = .running)
    (hf : fetchInstr s = .error f) (hl : latchOf 0 f = l) :
    ∃ t, step s = .next t ∧ FaultedWith l s t :=
  ⟨_, step_of_fetchInstr_error hrun hf, faultedWith_raise hl s⟩

/-- A step from an index outside the program is `OutOfBounds` of it, with `FOPC` 0 (40_step.md
R92). -/
theorem step_of_outside {s : State} (hrun : s.engine = .running)
    (hout : (s.reg .P).toInt < 0 ∨ (s.prog.length : Int) ≤ (s.reg .P).toInt) :
    ∃ t, step s = .next t ∧ FaultedWith ⟨0x01, 0x00, s.reg .P, 0, 0⟩ s t := by
  have hnot : ¬ InProgram s (s.reg .P) := by
    simp only [InProgram, State.plen]
    omega
  exact step_faultedWith hrun (fetchInstr_of_outside hnot) (latchOf_outOfBounds 0 _)

/-- A step of a running core at a word that does not decode takes the decode fault. -/
theorem step_of_decode_error {s : State} {w : InstrWord} {d : DecodeFault} {l : Latch}
    (hrun : s.engine = .running) (hw : fetchWord s = .ok w) (hd : decode w = .error d)
    (hl : latchOf 0 (faultOfDecode d) = l) : ∃ t, step s = .next t ∧ FaultedWith l s t :=
  step_faultedWith hrun (fetchInstr_of_decode_error hw hd) hl

/-- Settles O27: the fetched word decodes, so the step is `exec`. -/
theorem stepRunsTheDecodedInstruction : Obligations.StepRunsTheDecodedInstruction :=
  fun s w _ hrun hnonneg hw hi => step_of_fetchInstr hrun
    (fetchInstr_of_decode ((fetchWord_eq_ok_iff s w).2 ⟨hnonneg, hw⟩) hi)

/-- Settles O5: the decoder's three checks in their order, and `exec` if none of them fails. -/
theorem illegalWordsFaultInOrder : Obligations.IllegalWordsFaultInOrder := by
  intro s w hrun hnonneg hprog op
  have hw : fetchWord s = .ok w := (fetchWord_eq_ok_iff s w).2 ⟨hnonneg, hprog⟩
  refine ⟨fun hop => ?_, fun o hop hspare => ?_, fun o n hop hspare hn => ?_,
    fun o hop hspare hnone => ?_⟩
  · exact step_of_decode_error hrun hw (decode_of_unknown ((ofByte_eq_none_iff op).2 hop))
      (latchOf_unknownOpcode 0 op)
  · exact step_of_decode_error hrun hw (decode_of_spareBit hop hspare)
      (latchOf_wrongOperandCount 0 op)
  · have hdec : decode w = .error (.invalidRegister op n) := by
      rw [decode_of_opcode hop hspare]
      obtain ⟨-, -, -, -, hnone, -⟩ | ⟨m, hm, herr⟩ := decodeOperands_cases o w
      · simp [hnone] at hn
      · cases hn.symm.trans hm
        exact herr
    exact step_of_decode_error hrun hw hdec (latchOf_invalidRegister 0 op n)
  · obtain ⟨i, hi, hio⟩ := (exists_decode_iff w o).2 ⟨hop, hspare, hnone⟩
    exact ⟨i, hi, hio, step_of_fetchInstr hrun (fetchInstr_of_decode hw hi)⟩

/-! ### A word placed at `P` -/

/-- The placed word stands at its index. -/
theorem getElem?_placeWord_same (prog : List InstrWord) (n : Nat) (w : InstrWord) :
    (placeWord prog n w)[n]? = some w := by
  unfold placeWord
  split_ifs with hn
  · simp [hn]
  · rw [List.getElem?_append_right (by simp; omega)]
    simp [show n - (prog.length + (n - prog.length)) = 0 by omega]

/-- Every other word already loaded stays. -/
theorem getElem?_placeWord_of_ne (prog : List InstrWord) {n k : Nat} (w : InstrWord)
    (hk : k < prog.length) (hne : k ≠ n) : (placeWord prog n w)[k]? = prog[k]? := by
  unfold placeWord
  split_ifs with hn
  · rw [List.getElem?_set_ne (Ne.symm hne)]
  · rw [List.append_assoc, List.getElem?_append_left hk]

/-- A table word decodes as the word its bits are. -/
theorem decode_of_decodeTableWord {n w : Nat} {i : Instr} (h : decodeTableWord n w = some i) :
    decode (BitVec.ofNat 64 (w % 2 ^ n)) = .ok i := by
  simp only [decodeTableWord] at h
  split_ifs at h
  split at h
  · next hd => rw [hd, Option.some.inj h]
  · cases h

/-- At a `P` that is not negative, placing a word changes the program alone. -/
theorem placeAtPc_of_nonneg {s : State} (h : 0 ≤ (s.reg .P).toInt) (w : InstrWord) :
    placeAtPc s w = { s with prog := placeWord s.prog (s.reg .P).toInt.toNat w } :=
  if_neg (not_lt.2 h)

/-- Settles O28: the placed word is the one fetched, and it decodes. -/
theorem placedWordIsExecutedNext : Obligations.PlacedWordIsExecutedNext := by
  intro s w i hrun hnonneg hi t
  have ht : t = _ := placeAtPc_of_nonneg hnonneg (BitVec.ofNat 64 (w % 2 ^ 64))
  clear_value t
  subst ht
  exact ⟨stepRunsTheDecodedInstruction _ _ i hrun hnonneg (getElem?_placeWord_same _ _ _)
      (decode_of_decodeTableWord hi),
    rfl, fun k hk hne => getElem?_placeWord_of_ne s.prog _ hk hne⟩

/-! ### The program counter after a step -/

/-- A step of a core at an instruction is that instruction's execution. -/
theorem exec_of_step {s t : State} {i : Instr} (hi : fetchInstr s = .ok i)
    (h : step s = .next t) : s.engine = .running ∧ exec i s = .next t := by
  obtain ⟨hrun, -⟩ := step_cases h
  exact ⟨hrun, (step_of_fetchInstr hrun hi).symm.trans h⟩

/-- A commit from a running core leaves it running, or halts it normally. -/
theorem commit_engine_ne_haltedFault {s : State} (e : Effect) (n : Word)
    (hrun : s.engine = .running) : (commit e n s).engine ≠ .haltedFault := by
  rw [commit_engine, hrun]
  split <;> simp

/-- A step at an instruction that does not end in a fault is a commit. -/
theorem commit_of_step {s t : State} {i : Instr} (hi : fetchInstr s = .ok i)
    (h : step s = .next t) (hok : t.engine ≠ .haltedFault) :
    ∃ e n, PhaseOutcome i s (.ok e) ∧ PcAfter i s n ∧ t = commit e n s := by
  obtain ⟨f, -, rfl⟩ | ⟨d, -, -, rfl⟩ | ⟨-, rfl⟩ | hcommit := exec_cases (exec_of_step hi h).2
  · exact absurd rfl hok
  · exact absurd rfl hok
  · exact absurd rfl hok
  · exact hcommit

/-- Settles O32: the step is a commit, and its next `P` is the table's. -/
theorem pcAfterACompletedStep : Obligations.PcAfterACompletedStep := by
  intro s t i hi h hok
  obtain ⟨e, n, -, hpc, rfl⟩ := commit_of_step hi h hok
  rw [commit_pc]
  obtain ⟨htgt, hin⟩ | ⟨htgt, hsrc⟩ := hpc
  · refine ⟨fun d hd => ?_, fun hnone => by simp [htgt] at hnone⟩
    cases htgt.symm.trans hd
    exact ⟨rfl, hin⟩
  · exact ⟨fun d hd => by simp [htgt] at hd, fun _ => hsrc⟩

/-- Settles O29: the bounds check faults; a last instruction that completes without a jump, an END
or a write to `P` leaves `P` at `PLEN`, where it faults next. -/
theorem fetchOutsideTheProgramFaults : Obligations.FetchOutsideTheProgramFaults := by
  refine ⟨fun s => step_of_outside, fun s t hlaunch => ?_,
    fun s t i hi hlast hend htgt hdest h hok => ?_⟩
  · obtain ⟨-, rfl⟩ := launch_eq_some_iff.1 hlaunch
    exact step_of_outside rfl (.inr le_rfl)
  · obtain ⟨-, hnext⟩ := pcAfterACompletedStep s t i hi h hok
    obtain ⟨q, hq, hpc⟩ := hnext htgt
    rw [if_neg hdest, Option.some.injEq] at hq
    have hat : (t.reg .P).toInt = s.prog.length := by rw [hpc, ← hq, hlast]
    have hrunning : t.engine = .running := by
      obtain ⟨e, n, hphase, -, rfl⟩ := commit_of_step hi h hok
      obtain hhalt | ⟨hi', -⟩ := hphase.halt_cases
      · rw [commit_engine, hhalt]
        exact (step_cases h).1
      · exact absurd hi' hend
    refine ⟨hat, hrunning, step_of_outside hrunning (.inr ?_)⟩
    rw [step_prog h, hat]

end Sys2Proof.Machine
end

section
/-! Obligations about the latch and about what a step changes (10_state.md, 60_exceptions.md): every
one is a case analysis over the ways a step can end. -/

namespace Sys2Proof.Machine

/-! ### The latch and the fault value -/

/-- Settles O33: the latch of each kind. -/
theorem latchRecordsEachFaultKind : Obligations.LatchRecordsEachFaultKind :=
  fun fopc op n a b => ⟨latchOf_outOfBounds fopc a, latchOf_overflow fopc op a b,
    latchOf_divideByZero fopc a, latchOf_unknownOpcode fopc op, latchOf_wrongOperandCount fopc op,
    latchOf_invalidRegister fopc op n, by simp only [latchOf, FaultValue.errBit]; decide,
    rfl, rfl, rfl, rfl, rfl, rfl, rfl⟩

/-- The fault value a latch shows, by the value of its flags. -/
theorem faultValue_eq (l : Latch) :
    l.faultValue =
      if l.err = 0x01 then some (.outOfBounds l.faddr)
      else if l.err = 0x02 then some (.overflow l.fopc l.fopa l.fopb)
      else if l.err = 0x04 then some (.divideByZero l.fopa)
      else if l.err = 0x08 then some (.unknownOpcode l.fopc)
      else if l.err = 0x10 then some (.wrongOperandCount l.fopc)
      else if l.err = 0x20 then some (.invalidRegister l.fopc (l.faddr.setWidth 4))
      else none := by
  rw [Latch.faultValue, show errWithBit 0 = 0x01 by decide, show errWithBit 1 = 0x02 by decide,
    show errWithBit 2 = 0x04 by decide, show errWithBit 3 = 0x08 by decide,
    show errWithBit 4 = 0x10 by decide, show errWithBit 5 = 0x20 by decide]

theorem faultValue_clear : Latch.clear.faultValue = none := by decide

/-- Settles O34: each kind's flag selects it, and the context registers hold its values. -/
theorem latchShowsTheFaultValue : Obligations.LatchShowsTheFaultValue := by
  refine ⟨faultValue_clear, fun fopc f hf => ?_⟩
  rw [faultValue_eq]
  cases f with
  | outOfBounds a => simp
  | overflow op a b => simp
  | divideByZero a => simp
  | unknownOpcode op => simp
  | wrongOperandCount op => simp
  | invalidRegister op n => simp [BitVec.setWidth_setWidth_of_le]
  | invalidAddress => exact absurd rfl hf

/-! ### What a fault leaves -/

/-- All the ways a step ends: a fault before the execute phase, a fault of the instruction, or the
commit of its effect. No fault is `InvalidAddress`. -/
theorem step_raise_or_commit {s t : State} (h : step s = .next t) :
    (∃ op f, f ≠ .invalidAddress ∧ t = raise op f s) ∨
    (∃ i e n, fetchInstr s = .ok i ∧ PhaseOutcome i s (.ok e) ∧ t = commit e n s) := by
  obtain ⟨-, ⟨f, hf, rfl⟩ | ⟨i, hi, hexec⟩⟩ := step_cases h
  · refine .inl ⟨0, f, ?_, rfl⟩
    obtain ⟨-, rfl⟩ | ⟨-, w, d, -, rfl⟩ := fetchInstr_error_cases hf
    · simp
    · cases d <;> simp [faultOfDecode]
  · obtain ⟨f, hphase, rfl⟩ | ⟨d, -, -, rfl⟩ | ⟨-, rfl⟩ | ⟨e, n, hphase, -, rfl⟩ :=
      exec_cases hexec
    · exact .inl ⟨_, f, by cases hphase <;> simp, rfl⟩
    · exact .inl ⟨_, _, by simp, rfl⟩
    · exact .inl ⟨_, _, by simp, rfl⟩
    · exact .inr ⟨i, e, n, hi, hphase, rfl⟩

/-- Settles O35: a commit does not end in `HaltedFault`, and a fault changes only the latch and
`STATE`. -/
theorem faultingStepChangesOnlyTheLatch : Obligations.FaultingStepChangesOnlyTheLatch := by
  intro s t h hfault
  obtain ⟨op, f, hf, rfl⟩ | ⟨i, e, n, -, -, rfl⟩ := step_raise_or_commit h
  · exact ⟨op, f, hf, faultedWith_raise rfl s⟩
  · exact absurd hfault (commit_engine_ne_haltedFault e n (step_cases h).1)

/-! ### What a step can change -/

/-- Settles O46: a fault changes no register, and an effect's one register write is to the
instruction's destination. -/
theorem onlyTheDestinationRegisterChanges : Obligations.OnlyTheDestinationRegisterChanges := by
  intro s t h q hq hne
  obtain ⟨op, f, -, rfl⟩ | ⟨i, e, n, hi, hphase, rfl⟩ := step_raise_or_commit h
  · exact absurd (raise_reg s op f q) hne
  · obtain hnone | ⟨r, v, hdest, hwrite⟩ := hphase.regWrite_cases
    · exact absurd (sameRegistersBut_commit n s hnone q hq (by simp)) hne
    · have hqr : q = r := by
        by_contra hqr
        rw [commit_reg s e n q hq, Effect.applyRegs, hwrite] at hne
        exact hne (RegFile.get_set_of_ne _ _ _ _ hqr)
      exact ⟨i, hi, hqr ▸ hdest⟩

/-- Settles O47: a fault changes no cell, and an effect's one memory write is a store's, to its
address. -/
theorem onlyStoresChangeMemory : Obligations.OnlyStoresChangeMemory := by
  intro s t h a hne
  obtain ⟨op, f, -, rfl⟩ | ⟨i, e, n, hi, hphase, rfl⟩ := step_raise_or_commit h
  · exact absurd (raise_cell s op f a) hne
  · obtain hnone | ⟨x, r, haddr, hin, hstore, hwrite⟩ := hphase.cellWrite_cases
    · exact absurd (sameMemory_commit n s hnone a) hne
    · have hax : x.toNat = a := by
        by_contra hax
        rw [State.cell, commit_mem, Effect.applyMem, hwrite] at hne
        exact hne (Memory.read_write_of_ne _ (Ne.symm hax))
      refine ⟨i, x, hi, haddr, hax, hax ▸ toNat_lt_of_inData hin, ?_⟩
      obtain rfl | rfl := hstore
      · exact ⟨.inl ⟨r, rfl⟩, rfl⟩
      · exact ⟨.inr ⟨r, rfl⟩, rfl⟩

/-- A step either leaves `OUT` alone with the port idle, or commits a PRINT. -/
theorem step_output_cases {s t : State} (h : step s = .next t) :
    (t.out = s.out ∧ t.outPort = none) ∨
    ∃ r, fetchInstr s = .ok (.print r) ∧ t.engine = .running ∧
      t.out = s.out ++ [s.reg r] ∧ t.outPort = some (s.reg r) := by
  obtain ⟨op, f, -, rfl⟩ | ⟨i, e, n, hi, hphase, rfl⟩ := step_raise_or_commit h
  · exact .inl ⟨raise_out s op f, raise_outPort s op f⟩
  · obtain hnone | ⟨r, rfl, hemit, hhalt⟩ := hphase.emit_cases
    · exact .inl ⟨by simp [hnone], hnone⟩
    · refine .inr ⟨r, hi, ?_, by simp [hemit], hemit⟩
      rw [commit_engine, hhalt]
      exact (step_cases h).1

/-- Along a run `OUT` grows at its end only (10_state.md R24). -/
theorem Reaches.exists_out_eq_append {s t : State} (h : Reaches s t) : ∃ e, t.out = s.out ++ e := by
  induction h with
  | here => exact ⟨[], (List.append_nil _).symm⟩
  | next _ hstep ih =>
    obtain ⟨e, he⟩ := ih
    obtain ⟨hout, -⟩ | ⟨r, -, -, hout, -⟩ := step_output_cases hstep
    · exact ⟨e, hout.trans he⟩
    · exact ⟨e ++ [_], by rw [hout, he, List.append_assoc]⟩

/-- Settles O48: each step, and then the run by induction. -/
theorem onlyPrintAppendsToOutput : Obligations.OnlyPrintAppendsToOutput :=
  ⟨fun _ _ => step_output_cases, fun _ _ => Reaches.exists_out_eq_append⟩

/-! ### What a step reads -/

/-- A state with the same readable part differs in the latch, `OUT` and the output port alone. -/
theorem SameReadableState.eq_update {s s' : State} (h : SameReadableState s s') :
    s' = { s with latch := s'.latch, out := s'.out, outPort := s'.outPort } := by
  obtain ⟨hregs, hmem, hengine, hprog⟩ := h
  cases s'
  simp_all

theorem SameReadableState.fetchInstr_eq {s s' : State} (h : SameReadableState s s') :
    fetchInstr s' = fetchInstr s := by
  rw [h.eq_update]
  rfl

theorem SameReadableState.executePhase_eq {s s' : State} (h : SameReadableState s s') (i : Instr) :
    executePhase i s' = executePhase i s := by
  rw [h.eq_update]
  cases i <;> rfl

theorem SameReadableState.nextPc_eq {s s' : State} (h : SameReadableState s s') (op : BitVec 8)
    (e : Effect) : nextPc op e s' = nextPc op e s := by
  rw [h.eq_update]
  rfl

theorem SameReadableState.raise {s s' : State} (h : SameReadableState s s') (op : BitVec 8)
    (f : FaultValue) : SameReadableState (raise op f s) (raise op f s') := by
  obtain ⟨hregs, hmem, -, hprog⟩ := h
  exact ⟨hregs, hmem, rfl, hprog⟩

theorem SameReadableState.commit {s s' : State} (h : SameReadableState s s') (e : Effect)
    (n : Word) : SameReadableState (commit e n s) (commit e n s') := by
  obtain ⟨hregs, hmem, hengine, hprog⟩ := h
  simp [SameReadableState, hregs, hmem, hengine, hprog]

/-- Two executions of an instruction from states with the same readable part end alike: with one
fault, or with one effect and one next `P`. -/
theorem SameReadableState.exec {s s' : State} (h : SameReadableState s s') (i : Instr) :
    (∃ op f, exec i s = .next (Machine.raise op f s) ∧
      exec i s' = .next (Machine.raise op f s')) ∨
    (∃ e n, exec i s = .next (Machine.commit e n s) ∧
      exec i s' = .next (Machine.commit e n s')) := by
  have hphase := h.executePhase_eq i
  cases hans : executePhase i s with
  | error f => exact .inl ⟨_, f, exec_of_error hans, exec_of_error (hphase.trans hans)⟩
  | ok e =>
    have hnext := h.nextPc_eq i.opcode.byte e
    cases hpc : nextPc i.opcode.byte e s with
    | error f =>
      exact .inl ⟨_, f, exec_of_pcFault hans hpc,
        exec_of_pcFault (hphase.trans hans) (hnext.trans hpc)⟩
    | ok n =>
      exact .inr ⟨e, n, exec_of_commit hans hpc,
        exec_of_commit (hphase.trans hans) (hnext.trans hpc)⟩

/-- Two steps from states with the same readable part end alike. -/
theorem SameReadableState.step {s s' : State} (h : SameReadableState s s')
    (hrun : s.engine = .running) :
    (∃ op f, step s = .next (Machine.raise op f s) ∧ step s' = .next (Machine.raise op f s')) ∨
    (∃ e n, step s = .next (Machine.commit e n s) ∧
      step s' = .next (Machine.commit e n s')) := by
  have hrun' : s'.engine = .running := by rw [h.eq_update, hrun]
  have hfetch := h.fetchInstr_eq
  cases hf : fetchInstr s with
  | error f =>
    exact .inl ⟨0, f, step_of_fetchInstr_error hrun hf,
      step_of_fetchInstr_error hrun' (hfetch.trans hf)⟩
  | ok i =>
    rw [step_of_fetchInstr hrun hf, step_of_fetchInstr hrun' (hfetch.trans hf)]
    exact h.exec i

/-- Settles O50: the two steps end alike, with the same fault or the same commit, and both ends keep
the readable parts equal. -/
theorem latchAndOutputAreNeverRead : Obligations.LatchAndOutputAreNeverRead := by
  intro s s' t hsame h
  have hrun := (step_cases h).1
  obtain ⟨op, f, hs, hs'⟩ | ⟨e, n, hs, hs'⟩ := hsame.step hrun
  · cases hs.symm.trans h
    exact ⟨_, [], hs', hsame.raise op f, (List.append_nil _).symm, (List.append_nil _).symm, rfl,
      fun _ => rfl, fun hne => absurd rfl hne⟩
  · cases hs.symm.trans h
    exact ⟨_, e.emit.toList, hs', hsame.commit e n, rfl, rfl, rfl,
      fun hfault => absurd hfault (commit_engine_ne_haltedFault e n hrun), fun _ => ⟨rfl, rfl⟩⟩

end Sys2Proof.Machine
end

section
/-! The invariant of the machine and the origins of the faults (10_state.md, 60_exceptions.md). A
fault is coherent by the opcodes its origin is possible for; each origin raises its fault, and the
case analysis of a step shows that nothing else does. -/

namespace Sys2Proof.Machine

/-! ### The opcodes of each origin -/

section
variable {i : Instr} {s : State}

theorem opcode_of_dataAddress {a : Word} (h : dataAddress i s = some a) :
    i.opcode ∈ [Opcode.loada, .load, .storea, .store] := by
  cases i with
  | loada _ _ | load _ | storea _ _ | store _ => simp [Instr.opcode]
  | _ => cases h

theorem opcode_of_takenTarget {t : Word} (h : takenTarget i s = some t) :
    i.opcode ∈ [Opcode.jmp, .jmpr, .jz, .jlt] := by
  cases i with
  | jmp _ | jmpr _ | jz _ _ | jlt _ _ _ => simp [Instr.opcode]
  | _ => cases h

theorem opcode_of_exactResult {x : Int} (h : exactResult i s = some x) :
    i.opcode ∈ [Opcode.addi, .add, .sub, .mul, .div] := by
  cases i with
  | addi _ _ | add _ _ _ | sub _ _ _ | mul _ _ _ | div _ _ _ => simp [Instr.opcode]
  | _ => cases h

theorem opcode_of_destination {r : Reg} (h : destination i = some r) :
    i.opcode ∈ [Opcode.loada, .load, .loadi, .move, .addi, .add, .sub, .mul, .div] := by
  cases i with
  | storea _ _ | store _ | jmp _ | jmpr _ | jz _ _ | jlt _ _ _ | print _ | endRun => cases h
  | _ => simp [Instr.opcode]

end

/-! ### Coherent latches -/

theorem latchCoherent_fetch (p : Word) : latchCoherent (latchOf 0 (.outOfBounds p)) = true := by
  simp [latchCoherent]

theorem latchCoherent_badAddress {o : Opcode} (a : Word)
    (h : o ∈ [Opcode.loada, .load, .storea, .store]) :
    latchCoherent (latchOf o.byte (.outOfBounds a)) = true := by
  cases o <;> simp [latchCoherent, Opcode.byte] at h ⊢

theorem latchCoherent_badTarget {o : Opcode} (t : Word)
    (h : o ∈ [Opcode.jmp, .jmpr, .jz, .jlt]) :
    latchCoherent (latchOf o.byte (.outOfBounds t)) = true := by
  cases o <;> simp [latchCoherent, Opcode.byte] at h ⊢

theorem latchCoherent_outOfRange {o : Opcode} (fopc : BitVec 8) (a b : Word)
    (h : o ∈ [Opcode.addi, .add, .sub, .mul, .div]) :
    latchCoherent (latchOf fopc (.overflow o.byte a b)) = true := by
  cases o <;> simp [latchCoherent, Opcode.byte] at h ⊢

theorem latchCoherent_pcOverflow {o : Opcode} (fopc : BitVec 8)
    (h : o ∈ [Opcode.loada, .load, .loadi, .move, .addi, .add, .sub, .mul, .div]) :
    latchCoherent (latchOf fopc (.overflow o.byte intMaxWord 1)) = true := by
  cases o <;> simp [latchCoherent, Opcode.byte] at h ⊢

theorem latchCoherent_divideByZero (fopc : BitVec 8) (a : Word) :
    latchCoherent (latchOf fopc (.divideByZero a)) = true := by
  simp [latchCoherent]

/-- The three kinds of decode fault, with what is known of the opcode and the register number. -/
theorem decode_error_cases {w : InstrWord} {d : DecodeFault} (h : decode w = .error d) :
    (∃ op : BitVec 8, (op.toNat = 0 ∨ 0x12 ≤ op.toNat) ∧ d = .unknownOpcode op) ∨
    (∃ o : Opcode, d = .wrongOperandCount o.byte) ∨
    (∃ (o : Opcode) (n : BitVec 4), o.format.registerCount ≠ 0 ∧ 6 ≤ n.toNat ∧
      d = .invalidRegister o.byte n) := by
  cases ho : Opcode.ofByte (opField w) with
  | none =>
    rw [decode_of_unknown ho] at h
    cases h
    exact .inl ⟨_, (ofByte_eq_none_iff _).1 ho, rfl⟩
  | some o =>
    have hop := (byte_of_ofByte ho).symm
    by_cases hspare : w &&& o.format.mbz = 0
    · rw [decode_of_opcode hop hspare] at h
      obtain ⟨i, -, -, -, -, hok⟩ | ⟨n, hn, herr⟩ := decodeOperands_cases o w
      · simp [hok] at h
      · cases herr.symm.trans h
        refine .inr (.inr ⟨o, n, fun hzero => ?_, by simpa using List.find?_some hn, by rw [hop]⟩)
        simp [usedRegisterFields, hzero] at hn
    · rw [decode_of_spareBit hop hspare, hop] at h
      cases h
      exact .inr (.inl ⟨o, rfl⟩)

theorem latchCoherent_decode {w : InstrWord} {d : DecodeFault} (fopc : BitVec 8)
    (h : decode w = .error d) : latchCoherent (latchOf fopc (faultOfDecode d)) = true := by
  obtain ⟨op, hop, rfl⟩ | ⟨o, rfl⟩ | ⟨o, n, hcount, hn, rfl⟩ := decode_error_cases h
  · have hzero : op = 0 ∨ 0x12 ≤ op.toNat := hop.imp_left fun h0 => BitVec.eq_of_toNat_eq h0
    simpa [faultOfDecode, latchCoherent] using hzero
  · cases o <;> simp [faultOfDecode, latchCoherent, Opcode.byte]
  · have hlt : n.toNat < 16 := n.isLt
    have hmod : n.toNat % 2 ^ 32 = n.toNat := Nat.mod_eq_of_lt (by omega)
    have hfaddr : (n.setWidth 32).toNat = n.toNat := by rw [BitVec.toNat_setWidth, hmod]
    cases o <;>
      simp [faultOfDecode, latchCoherent, Opcode.byte, hfaddr, Opcode.format,
        Format.registerCount] at hcount ⊢ <;> omega

/-! ### The invariant -/

/-- In a state of the invariant an instruction is fetched below `INT_MAX` (40_step.md R97). -/
theorem pc_lt_of_fetchInstr {s : State} {i : Instr} (hplen : s.prog.length ≤ Config.maxPlen)
    (hi : fetchInstr s = .ok i) : (s.reg .P).toInt < 2147483647 := by
  obtain ⟨-, hlt⟩ := inProgram_of_fetchInstr hi
  simp only [State.plen, Config.maxPlen] at hlt hplen
  omega

/-- So the increment overflows only where the instruction wrote `INT_MAX` into `P`. -/
theorem destination_of_pcOverflow {s : State} {i : Instr}
    (hplen : s.prog.length ≤ Config.maxPlen) (hi : fetchInstr s = .ok i)
    (hsrc : pcSource i s = some 2147483647) :
    destination i = some .P ∧ resultValue i s = some 2147483647 := by
  have hlt := pc_lt_of_fetchInstr hplen hi
  unfold pcSource at hsrc
  split_ifs at hsrc with hdest
  · exact ⟨hdest, hsrc⟩
  · have := Option.some.inj hsrc
    omega

/-- Every fault a step raises in a program of legal length is coherent. -/
theorem latchCoherent_of_step {s t : State} (hplen : s.prog.length ≤ Config.maxPlen)
    (h : step s = .next t) (hfault : t.engine = .haltedFault) : latchCoherent t.latch = true := by
  obtain ⟨hrun, ⟨f, hf, rfl⟩ | ⟨i, hi, hexec⟩⟩ := step_cases h
  · obtain ⟨-, rfl⟩ | ⟨-, w, d, hd, rfl⟩ := fetchInstr_error_cases hf
    · exact latchCoherent_fetch _
    · exact latchCoherent_decode 0 hd
  · obtain ⟨f, hphase, rfl⟩ | ⟨d, htgt, -, rfl⟩ | ⟨hsrc, rfl⟩ | ⟨e, n, -, -, rfl⟩ :=
      exec_cases hexec
    · cases hphase with
      | badAddress haddr _ => exact latchCoherent_badAddress _ (opcode_of_dataAddress haddr)
      | outOfRange hx _ _ =>
        exact latchCoherent_outOfRange i.opcode.byte _ _ (opcode_of_exactResult hx)
      | zeroDivisor _ _ => exact latchCoherent_divideByZero i.opcode.byte _
    · exact latchCoherent_badTarget d (opcode_of_takenTarget htgt)
    · obtain ⟨hdest, -⟩ := destination_of_pcOverflow hplen hi hsrc
      exact latchCoherent_pcOverflow i.opcode.byte (opcode_of_destination hdest)
    · exact absurd hfault (commit_engine_ne_haltedFault e n hrun)

/-- A committed memory write keeps the canonical form. -/
theorem PhaseOutcome.applyMem_wf {i : Instr} {s : State} {e : Effect}
    (h : PhaseOutcome i s (.ok e)) (hwf : Memory.wf s.mem = true) :
    Memory.wf (e.applyMem s.mem) = true := by
  unfold Effect.applyMem
  obtain hnone | ⟨a, r, -, hin, -, hwrite⟩ := h.cellWrite_cases
  · rwa [hnone]
  · rw [hwrite]
    exact Memory.write_wf _ hwf (toNat_lt_of_inData hin)

/-- The port after a commit: idle where the core halts, else the last value of `OUT` if any. -/
theorem PhaseOutcome.outPort_commit {i : Instr} {s : State} {e : Effect}
    (h : PhaseOutcome i s (.ok e)) (n : Word) (hrun : s.engine = .running) :
    ((commit e n s).engine ≠ .running → (commit e n s).outPort = none) ∧
    ((commit e n s).outPort ≠ none →
      (commit e n s).outPort = (commit e n s).out.getLast?) := by
  obtain hnone | ⟨r, -, hemit, hhalt⟩ := h.emit_cases
  · exact ⟨fun _ => hnone, fun hne => absurd hnone hne⟩
  · refine ⟨fun hne => ?_, fun _ => by simp [hemit]⟩
    rw [commit_engine, hhalt] at hne
    exact absurd hrun hne

/-- Settles O45: a fault leaves a coherent latch and an idle port; a commit leaves the latch clear,
keeps memory canonical and shows what it emitted. -/
theorem stepKeepsTheInvariant : Obligations.StepKeepsTheInvariant := by
  rintro s t ⟨hwf, hplen, hclear, -, -, -⟩ h
  have hrun := (step_cases h).1
  have hcoherent := latchCoherent_of_step hplen h
  obtain ⟨op, f, -, rfl⟩ | ⟨i, e, n, -, hphase, rfl⟩ := step_raise_or_commit h
  · exact ⟨hwf, hplen, fun hne => absurd rfl hne, hcoherent, fun _ => rfl,
      fun hne => absurd rfl hne⟩
  · obtain ⟨hidle, hlast⟩ := hphase.outPort_commit n hrun
    exact ⟨hphase.applyMem_wf hwf, hplen, fun _ => hclear (by simp [hrun]), hcoherent, hidle, hlast⟩

/-- The invariant holds along every run from a state of it. -/
theorem Reaches.machineInv {s t : State} (hinv : MachineInv s) (h : Reaches s t) :
    MachineInv t := by
  induction h with
  | here => exact hinv
  | next _ hstep ih => exact stepKeepsTheInvariant _ _ ih hstep

/-- In a state of the invariant a core that takes a step has a clear latch. -/
theorem MachineInv.latch_of_step {s t : State} (hinv : MachineInv s) (h : step s = .next t) :
    s.latch = Latch.clear := by
  obtain ⟨-, -, hclear, -, -, -⟩ := hinv
  exact hclear (by simp [(step_cases h).1])

/-! ### `ERR` and `STATE` -/

/-- A coherent latch has one of the flags 0 to 5 (10_state.md R20). -/
theorem exists_err_of_latchCoherent {l : Latch} (h : latchCoherent l = true) :
    ∃ n, n < 6 ∧ l.err = 1#7 <<< n := by
  unfold latchCoherent at h
  split at h
  · next hl => exact ⟨0, by omega, BitVec.eq_of_toNat_eq hl⟩
  · next hl => exact ⟨1, by omega, BitVec.eq_of_toNat_eq hl⟩
  · next hl => exact ⟨2, by omega, BitVec.eq_of_toNat_eq hl⟩
  · next hl => exact ⟨3, by omega, BitVec.eq_of_toNat_eq hl⟩
  · next hl => exact ⟨4, by omega, BitVec.eq_of_toNat_eq hl⟩
  · next hl => exact ⟨5, by omega, BitVec.eq_of_toNat_eq hl⟩
  · cases h

theorem one_shiftLeft_ne_zero : ∀ n < 6, 1#7 <<< n ≠ 0 := by decide

/-- In a state of the invariant `ERR` is 0 exactly if the run has not faulted. -/
theorem MachineInv.err_eq_zero_iff {s : State} (h : MachineInv s) :
    s.latch.err = 0 ↔ s.engine ≠ .haltedFault := by
  obtain ⟨-, -, hclear, hcoherent, -, -⟩ := h
  constructor
  · intro hzero hfault
    obtain ⟨n, hn, herr⟩ := exists_err_of_latchCoherent (hcoherent hfault)
    exact one_shiftLeft_ne_zero n hn (herr.symm.trans hzero)
  · intro hne
    rw [hclear hne]
    rfl

/-- Nothing is reached from a faulted state but itself (60_exceptions.md R162). -/
theorem Reaches.eq_of_haltedFault {s t : State} (h : Reaches s t) (hs : s.engine = .haltedFault) :
    t = s := by
  induction h with
  | here => rfl
  | next _ hstep ih =>
    subst ih
    simp [step_of_haltedFault hs] at hstep

/-- Settles O39, from the invariant along the run. -/
theorem errorFlagsOneHotAndSticky : Obligations.ErrorFlagsOneHotAndSticky := by
  intro s t hinv hreach
  have hinv' := hreach.machineInv hinv
  have hzero := hinv'.err_eq_zero_iff
  obtain ⟨-, -, -, hcoherent, -, -⟩ := hinv'
  refine ⟨hzero.symm, ⟨fun hfault => exists_err_of_latchCoherent (hcoherent hfault), ?_⟩,
    hreach.eq_of_haltedFault⟩
  rintro ⟨n, hn, herr⟩
  by_contra hne
  exact one_shiftLeft_ne_zero n hn (herr.symm.trans (hzero.2 hne))

/-- Settles O40: a step ends in a fault, in a commit that goes on, or in the commit of END, whose
increment cannot overflow at a fetched `P`. -/
theorem engineStateTransitions : Obligations.EngineStateTransitions := by
  refine ⟨fun s t hinv h => ?_, fun s hhalted => ⟨fun t h => ?_, _, rfl, rfl⟩⟩
  · have hrun := (step_cases h).1
    have hlatch := hinv.latch_of_step h
    have herr := MachineInv.err_eq_zero_iff (stepKeepsTheInvariant s t hinv h)
    refine ⟨hrun, ⟨fun hnormal => ?_, fun hi => ?_⟩, ⟨fun hfault heq => ?_, fun hne => ?_⟩⟩
    · obtain ⟨op, f, -, rfl⟩ | ⟨i, e, n, hi, hphase, rfl⟩ := step_raise_or_commit h
      · cases hnormal
      · obtain hhalt | ⟨rfl, -, -⟩ := hphase.halt_cases
        · simp [hhalt, hrun] at hnormal
        · exact hi
    · obtain ⟨-, hplen, -, -, -, -⟩ := hinv
      have hlt := pc_lt_of_fetchInstr hplen hi
      have hexec := (exec_of_step hi h).2
      rw [exec_of_advance (i := .endRun) rfl rfl rfl (by omega)] at hexec
      cases hexec
      rfl
    · rw [heq, hlatch] at herr
      exact herr.1 rfl hfault
    · by_contra hok
      obtain ⟨op, f, -, rfl⟩ | ⟨i, e, n, -, -, rfl⟩ := step_raise_or_commit h
      · exact hok rfl
      · exact hne rfl
  · exact hhalted (step_cases h).1

/-! ### The origins of the faults -/

/-- A step at an instruction whose execute phase faults latches that fault. -/
theorem latch_of_phaseFault {s t : State} {i : Instr} {f : FaultValue} (hi : fetchInstr s = .ok i)
    (h : step s = .next t) (hf : executePhase i s = .error f) :
    t.latch = latchOf i.opcode.byte f := by
  have hexec := (exec_of_step hi h).2
  rw [exec_of_error hf] at hexec
  cases hexec
  rfl

/-- A step at an instruction whose program counter update faults latches that fault. -/
theorem latch_of_pcFault {s t : State} {i : Instr} {e : Effect} {f : FaultValue}
    (hi : fetchInstr s = .ok i) (h : step s = .next t) (he : executePhase i s = .ok e)
    (hf : nextPc i.opcode.byte e s = .error f) : t.latch = latchOf i.opcode.byte f := by
  have hexec := (exec_of_step hi h).2
  rw [exec_of_pcFault he hf] at hexec
  cases hexec
  rfl

/-- A decode fault is none of `OutOfBounds`, `Overflow` and `DivideByZero`. -/
theorem err_decodeFault (fopc : BitVec 8) (d : DecodeFault) :
    (latchOf fopc (faultOfDecode d)).err ∈ [0x08, 0x10, 0x20] := by
  cases d <;> simp [faultOfDecode]

/-- The latch of a step from a state of the invariant: one of the origins, or clear. -/
theorem step_latch_cases {s t : State} (hinv : MachineInv s) (h : step s = .next t) :
    (¬ InProgram s (s.reg .P) ∧ t.latch = latchOf 0 (.outOfBounds (s.reg .P))) ∨
    t.latch.err ∈ [0x08, 0x10, 0x20] ∨
    (∃ i f, fetchInstr s = .ok i ∧ PhaseOutcome i s (.error f) ∧
      t.latch = latchOf i.opcode.byte f) ∨
    (∃ i d, fetchInstr s = .ok i ∧ takenTarget i s = some d ∧ ¬ InProgram s d ∧
      t.latch = latchOf i.opcode.byte (.outOfBounds d)) ∨
    (∃ i, fetchInstr s = .ok i ∧ destination i = some .P ∧ resultValue i s = some 2147483647 ∧
      t.latch = latchOf i.opcode.byte (.overflow i.opcode.byte intMaxWord 1)) ∨
    t.latch = Latch.clear := by
  have hclear := hinv.latch_of_step h
  obtain ⟨-, hplen, -, -, -, -⟩ := hinv
  obtain ⟨-, ⟨f, hf, rfl⟩ | ⟨i, hi, hexec⟩⟩ := step_cases h
  · obtain ⟨hout, rfl⟩ | ⟨-, w, d, -, rfl⟩ := fetchInstr_error_cases hf
    · exact .inl ⟨hout, rfl⟩
    · exact .inr (.inl (err_decodeFault 0 d))
  · obtain ⟨f, hphase, rfl⟩ | ⟨d, htgt, hout, rfl⟩ | ⟨hsrc, rfl⟩ | ⟨e, n, -, -, rfl⟩ :=
      exec_cases hexec
    · exact .inr (.inr (.inl ⟨i, f, hi, hphase, rfl⟩))
    · exact .inr (.inr (.inr (.inl ⟨i, d, hi, htgt, hout, rfl⟩)))
    · obtain ⟨hdest, hres⟩ := destination_of_pcOverflow hplen hi hsrc
      exact .inr (.inr (.inr (.inr (.inl ⟨i, hi, hdest, hres, rfl⟩))))
    · exact .inr (.inr (.inr (.inr (.inr hclear))))

theorem not_inProgram_iff (s : State) (p : Word) :
    ¬ InProgram s p ↔ p.toInt < 0 ∨ (s.prog.length : Int) ≤ p.toInt := by
  simp only [InProgram, State.plen]
  omega

/-- A fetch outside the program latches `OutOfBounds` with `FOPC` 0. -/
theorem latch_of_badFetch {s t : State} (h : step s = .next t)
    (hout : ¬ InProgram s (s.reg .P)) : t.latch = latchOf 0 (.outOfBounds (s.reg .P)) := by
  rw [step_of_fetchInstr_error (step_cases h).1 (fetchInstr_of_outside hout)] at h
  cases h
  rfl

/-- A taken jump out of the program latches `OutOfBounds` of its target. -/
theorem latch_of_badTarget {s t : State} {i : Instr} {d : Word} (hi : fetchInstr s = .ok i)
    (h : step s = .next t) (htgt : takenTarget i s = some d) (hout : ¬ InProgram s d) :
    t.latch = latchOf i.opcode.byte (.outOfBounds d) :=
  latch_of_pcFault hi h (executePhase_of_takenTarget htgt) (nextPc_of_outside hout)

/-- A write of `INT_MAX` into `P` latches the overflow of the increment. -/
theorem latch_of_pcAtMax {s t : State} {i : Instr} (hi : fetchInstr s = .ok i)
    (h : step s = .next t) (hdest : destination i = some .P)
    (hres : resultValue i s = some 2147483647) :
    t.latch = latchOf i.opcode.byte (.overflow i.opcode.byte intMaxWord 1) := by
  obtain ⟨v, hphase, hv⟩ :=
    executePhase_of_resultValue hdest hres (by simp [InRange, Config.intMin, Config.intMax])
  refine latch_of_pcFault hi h hphase (nextPc_of_max rfl ?_)
  rw [applyRegs_ofReg, RegFile.get_set_same, hv]

/-- Settles O36: each of the three origins latches the fault, and no other end of a step does. -/
theorem outOfBoundsHasThreeOrigins : Obligations.OutOfBoundsHasThreeOrigins := by
  intro s t hinv h badFetch badData badTarget
  have hfetch : badFetch → t.latch = ⟨0x01, 0x00, s.reg .P, 0, 0⟩ := fun hbad => by
    rw [latch_of_badFetch h ((not_inProgram_iff s _).2 hbad), latchOf_outOfBounds]
  have horigin : ∀ i a, badData i a ∨ badTarget i a →
      t.latch = ⟨0x01, i.opcode.byte, a, 0, 0⟩ := by
    rintro i a (⟨hi, haddr, hout⟩ | ⟨hi, htgt, hout⟩)
    · rw [latch_of_phaseFault hi h (executePhase_of_badAddress haddr hout), latchOf_outOfBounds]
    · rw [latch_of_badTarget hi h htgt hout, latchOf_outOfBounds]
  refine ⟨⟨fun herr => ?_, ?_⟩, hfetch, horigin⟩
  · obtain ⟨hout, -⟩ | hdecode | ⟨i, f, hi, hphase, hl⟩ | ⟨i, d, hi, htgt, hout, -⟩ |
      ⟨i, -, -, -, hl⟩ | hl := step_latch_cases hinv h
    · exact .inl ((not_inProgram_iff s _).1 hout)
    · simp [herr] at hdecode
    · cases hphase with
      | badAddress haddr hout => exact .inr ⟨i, _, .inl ⟨hi, haddr, hout⟩⟩
      | outOfRange _ _ _ => simp [hl] at herr
      | zeroDivisor _ _ => simp [hl] at herr
    · exact .inr ⟨i, d, .inr ⟨hi, htgt, hout⟩⟩
    · simp [hl] at herr
    · simp [hl, Latch.clear] at herr
  · rintro (hbad | ⟨i, a, hbad⟩)
    · rw [hfetch hbad]
    · rw [horigin i a hbad]

/-- Settles O37: each origin latches the fault with its operands, and no other end of a step
does. -/
theorem overflowHasItsOrigins : Obligations.OverflowHasItsOrigins := by
  intro s t hinv h tooLarge pcAtMax
  have hlarge : ∀ i, tooLarge i → ∃ a b, aluOperands i s = some (a, b) ∧
      t.latch = ⟨0x02, i.opcode.byte, 0, a, b⟩ := by
    rintro i ⟨hi, x, hx, hout⟩
    obtain ⟨a, b, hops, hphase⟩ := executePhase_of_outOfRange hx hout
    exact ⟨a, b, hops, by rw [latch_of_phaseFault hi h hphase, latchOf_overflow]⟩
  have hmax : ∀ i, pcAtMax i → t.latch = ⟨0x02, i.opcode.byte, 0, intMaxWord, 1⟩ := by
    rintro i ⟨hi, hdest, hres⟩
    rw [latch_of_pcAtMax hi h hdest hres, latchOf_overflow]
  refine ⟨⟨fun herr => ?_, ?_⟩, hlarge, hmax⟩
  · obtain ⟨-, hl⟩ | hdecode | ⟨i, f, hi, hphase, hl⟩ | ⟨i, d, -, -, -, hl⟩ |
      ⟨i, hi, hdest, hres, -⟩ | hl := step_latch_cases hinv h
    · simp [hl] at herr
    · simp [herr] at hdecode
    · cases hphase with
      | badAddress _ _ => simp [hl] at herr
      | outOfRange hx hout _ => exact ⟨i, .inl ⟨hi, _, hx, hout⟩⟩
      | zeroDivisor _ _ => simp [hl] at herr
    · simp [hl] at herr
    · exact ⟨i, .inr ⟨hi, hdest, hres⟩⟩
    · simp [hl, Latch.clear] at herr
  · rintro ⟨i, hbad | hbad⟩
    · obtain ⟨a, b, -, hl⟩ := hlarge i hbad
      rw [hl]
    · rw [hmax i hbad]

/-- Settles O38: a zero divisor latches the fault, and no other end of a step does. -/
theorem divideByZeroHasOneOrigin : Obligations.DivideByZeroHasOneOrigin := by
  intro s t hinv h
  have hzero : ∀ a b d, fetchInstr s = .ok (.div a b d) → s.reg b = 0 →
      t.latch = ⟨0x04, 0x0B, 0, s.reg a, 0⟩ := fun a b d hi hb => by
    rw [latch_of_phaseFault hi h (executePhase_div_of_eq_zero a d ((toInt_eq_zero_iff _).2 hb)),
      latchOf_divideByZero]
  refine ⟨⟨fun herr => ?_, ?_⟩, hzero⟩
  · obtain ⟨-, hl⟩ | hdecode | ⟨i, f, hi, hphase, hl⟩ | ⟨i, d, -, -, -, hl⟩ |
      ⟨i, -, -, -, hl⟩ | hl := step_latch_cases hinv h
    · simp [hl] at herr
    · simp [herr] at hdecode
    · cases hphase with
      | badAddress _ _ => simp [hl] at herr
      | outOfRange _ _ _ => simp [hl] at herr
      | zeroDivisor hdiv hb => exact ⟨_, _, _, hdiv ▸ hi, hb⟩
    · simp [hl] at herr
    · simp [hl] at herr
    · simp [hl, Latch.clear] at herr
  · rintro ⟨a, b, d, hi, hb⟩
    rw [hzero a b d hi hb]

end Sys2Proof.Machine
end

section
/-! Obligations about reset and launch (70_reset_and_hazards.md): each is about the result of
`State.applyReset`. -/

namespace Sys2Proof.Machine

/-- Settles O42: a run starts in the result of a reset. -/
theorem runStartsWithClearLatchAndOutput : Obligations.RunStartsWithClearLatchAndOutput := by
  intro t ht
  obtain ⟨s, rfl⟩ := exists_applyReset_of_runStart ht
  exact ⟨rfl, rfl, rfl, rfl, rfl, faultValue_clear, rfl, rfl⟩

/-- Reset depends on nothing but the program (70_reset_and_hazards.md R181). -/
theorem applyReset_congr {s s' : State} (h : s'.prog = s.prog) : s'.applyReset = s.applyReset := by
  rw [State.applyReset, State.applyReset, h]

/-- Settles O43: the reset values, which depend on the program alone. -/
theorem resetForgetsAllButTheProgram : Obligations.ResetForgetsAllButTheProgram := fun s =>
  ⟨s.applyReset, rfl, applyReset_reg s, fun _ => rfl, rfl, rfl, rfl, rfl, rfl,
    fun _ h => congrArg Host.Outcome.next (applyReset_congr h)⟩

/-- Reset gives a state of the invariant for every program of legal length. -/
theorem machineInv_applyReset (s : State) (hplen : s.prog.length ≤ Config.maxPlen) :
    MachineInv s.applyReset :=
  ⟨rfl, hplen, fun _ => rfl, nofun, fun _ => rfl, fun h => absurd rfl h⟩

/-- Settles O44: a launch is a reset with a program of legal length. -/
theorem invariantHoldsAtLaunch : Obligations.InvariantHoldsAtLaunch := by
  refine ⟨machineInv_applyReset State.reset (Nat.zero_le _), fun s t prog hlaunch => ?_⟩
  obtain ⟨hwf, rfl⟩ := launch_eq_some_iff.1 hlaunch
  exact ⟨machineInv_applyReset _ (of_decide_eq_true hwf), rfl⟩

end Sys2Proof.Machine
end

section
/-! The assembler (30_encoding.md section 5). A line of tokens spells an instruction or has one of
the four errors, and a spelled instruction assembles to its encoding. -/

namespace Sys2Proof.Machine

/-! ### Tokens of a line -/

/-- Characters that are no white space extend the current token. -/
theorem tokensFrom_append_of_nonspace (reversed t cs : List Char)
    (ht : ∀ c ∈ t, c.isWhitespace = false) :
    tokensFrom reversed (t ++ cs) = tokensFrom (t.reverse ++ reversed) cs := by
  induction t generalizing reversed with
  | nil => rfl
  | cons c t ih =>
    obtain ⟨hc, ht⟩ := List.forall_mem_cons.1 ht
    rw [List.cons_append, tokensFrom, if_neg (by simp [hc]), ih _ ht, List.reverse_cons,
      List.append_assoc, List.singleton_append]

/-- White space outside a token is skipped. -/
theorem tokensFrom_append_of_space (ws cs : List Char) (hws : ∀ c ∈ ws, c.isWhitespace = true) :
    tokensFrom [] (ws ++ cs) = tokensFrom [] cs := by
  induction ws with
  | nil => rfl
  | cons c ws ih =>
    obtain ⟨hc, hws⟩ := List.forall_mem_cons.1 hws
    rw [List.cons_append, tokensFrom, if_pos hc, ih hws]
    rfl

theorem flushToken_reverse {t : Token} (ht : t ≠ []) : flushToken t.reverse = [t] := by
  simp [flushToken, ht]

/-- A token and the white space after it. -/
theorem tokensFrom_token {t ws : List Char} (cs : List Char) (hne : t ≠ [])
    (ht : ∀ c ∈ t, c.isWhitespace = false) (hws : ws ≠ [])
    (hspace : ∀ c ∈ ws, c.isWhitespace = true) :
    tokensFrom [] (t ++ ws ++ cs) = t :: tokensFrom [] cs := by
  obtain ⟨c, ws, rfl⟩ := List.exists_cons_of_ne_nil hws
  obtain ⟨hc, hspace⟩ := List.forall_mem_cons.1 hspace
  rw [List.append_assoc, tokensFrom_append_of_nonspace _ _ _ ht, List.append_nil, List.cons_append,
    tokensFrom, if_pos hc, flushToken_reverse hne, tokensFrom_append_of_space _ _ hspace,
    List.singleton_append]

/-- Tokens, each with the white space after it, are read back in order. -/
theorem tokensFrom_parts (parts : List (Token × List Char)) (cs : List Char)
    (hparts : ∀ p ∈ parts, p.1 ≠ [] ∧ (∀ c ∈ p.1, c.isWhitespace = false) ∧
      p.2 ≠ [] ∧ ∀ c ∈ p.2, c.isWhitespace = true) :
    tokensFrom [] ((parts.flatMap fun p => p.1 ++ p.2) ++ cs) =
      parts.map Prod.fst ++ tokensFrom [] cs := by
  induction parts with
  | nil => rfl
  | cons p parts ih =>
    obtain ⟨⟨hne, ht, hws, hspace⟩, hparts⟩ := List.forall_mem_cons.1 hparts
    rw [List.flatMap_cons, List.append_assoc, tokensFrom_token _ hne ht hws hspace, ih hparts]
    rfl

/-- Settles O54: leading white space is skipped, then the parts are cut off one by one. -/
theorem lineIsCutAtWhiteSpace : Obligations.LineIsCutAtWhiteSpace := by
  intro before parts hbefore hparts
  refine ⟨?_, fun last hne hlast => ?_⟩
  · have hread := tokensFrom_parts parts [] hparts
    rw [List.append_nil] at hread
    rw [tokensFrom_append_of_space _ _ hbefore, hread]
    exact List.append_nil _
  · have hread := tokensFrom_append_of_nonspace [] last [] hlast
    rw [List.append_nil, List.append_nil] at hread
    rw [List.append_assoc, tokensFrom_append_of_space _ _ hbefore, tokensFrom_parts _ _ hparts,
      hread, tokensFrom, flushToken_reverse hne]

/-! ### Spelled operands -/

/-- Every opcode with as many registers as its format has, and any immediate, is an instruction. -/
theorem exists_instr (o : Opcode) (rs : List Reg) (v : Word)
    (hlen : rs.length = o.format.registerCount) :
    ∃ i : Instr, i.opcode = o ∧ registerOperands i = rs ∧
      immediateOperand i = if o.format.hasImmediate then some v else none :=
  ⟨instrOf o (fun k => rs.getD k .A) v, opcode_instrOf o _ v,
    registerOperands_instrOf_getD v hlen, immediateOperand_instrOf o _ v⟩

/-- The tokens after the registers spell the immediate: none, or one integer. -/
def SpellsImmediate (integers : List Token) : Option Word → Prop
  | none => integers = []
  | some v => ∃ t, integers = [t] ∧ SpellsInteger t v.toInt

theorem spellsInstr_iff (tokens : List Token) (i : Instr) :
    SpellsInstr tokens i ↔ ∃ integers,
      tokens = i.opcode.mnemonic.toList :: ((registerOperands i).map registerName ++ integers) ∧
        SpellsImmediate integers (immediateOperand i) :=
  Iff.rfl

/-- An instruction has an immediate exactly if its format does. -/
theorem isSome_immediateOperand (i : Instr) :
    (immediateOperand i).isSome = i.opcode.format.hasImmediate := by
  cases i <;> rfl

theorem registersOfTokens_map (rs : List Reg) :
    registersOfTokens (rs.map registerName) = .ok (rs.map Reg.number) := by
  induction rs with
  | nil => rfl
  | cons r rs ih => simp [registersOfTokens, ih, bind, Except.bind, pure, Except.pure]

/-- A token that spells a word's signed value is read as that word. -/
theorem wordOfToken_of_spells {t : Token} {v : Word} (h : SpellsInteger t v.toInt) :
    wordOfToken t = .ok v := by
  obtain ⟨u, hu, hok⟩ | ⟨hnone, -⟩ := wordOfToken_cases t
  · have huv := (integerOfToken_eq_some.2 hu).symm.trans (integerOfToken_eq_some.2 h)
    rw [hok, BitVec.eq_of_toInt_eq (Option.some.inj huv)]
  · exact absurd h (hnone v)

/-! ### Assembling tokens -/

section
variable {o : Opcode} {operands : List Token}

/-- The integer positions of a line with the right number of operands hold one token if the format
has an immediate, and none otherwise. -/
theorem drop_operands (hlen : operands.length = o.format.operandCount) :
    operands.drop o.format.registerCount =
      if o.format.hasImmediate then [operands.getD o.format.registerCount []] else [] := by
  rw [Format.operandCount] at hlen
  split_ifs at hlen ⊢ with himm
  · rw [List.drop_eq_getElem_cons (by omega), List.drop_eq_nil_of_le (by omega),
      List.getD_eq_getElem _ _ (by omega)]
  · exact List.drop_eq_nil_of_le (by omega)

theorem assembleTokens_of_count (hlen : operands.length ≠ o.format.operandCount) :
    assembleTokens (o.mnemonic.toList :: operands) = .error .wrongOperandCount := by
  simp [assembleTokens, hlen]

theorem assembleTokens_of_badRegister (hlen : operands.length = o.format.operandCount)
    {x : AsmError} (hregs : registersOfTokens (operands.take o.format.registerCount) = .error x) :
    assembleTokens (o.mnemonic.toList :: operands) = .error x := by
  simp [assembleTokens, hlen, hregs, bind, Except.bind]

theorem assembleTokens_of_badInteger (hlen : operands.length = o.format.operandCount)
    {ns : List (BitVec 4)} {x : AsmError}
    (hregs : registersOfTokens (operands.take o.format.registerCount) = .ok ns)
    (hword : o.format.hasImmediate = true)
    (himm : wordOfToken (operands.getD o.format.registerCount []) = .error x) :
    assembleTokens (o.mnemonic.toList :: operands) = .error x := by
  simp only [assembleTokens, opcodeOfToken_mnemonic, if_pos hlen, hregs, if_pos hword, himm, bind,
    Except.bind]

theorem assembleTokens_of_operands (hlen : operands.length = o.format.operandCount)
    {ns : List (BitVec 4)} {v : Word}
    (hregs : registersOfTokens (operands.take o.format.registerCount) = .ok ns)
    (himm : (if o.format.hasImmediate then wordOfToken (operands.getD o.format.registerCount [])
      else .ok 0) = .ok v) :
    assembleTokens (o.mnemonic.toList :: operands) =
      .ok (packWord o.byte (ns.getD 0 0) (ns.getD 1 0) (ns.getD 2 0) v) := by
  simp only [assembleTokens, opcodeOfToken_mnemonic, if_pos hlen, hregs, bind, Except.bind]
  split_ifs at himm ⊢ with hword
  · rw [himm]
    rfl
  · cases himm
    rfl

end

/-- The operand tokens of a spelled instruction are as many as its format takes. -/
theorem length_of_spellsImmediate {i : Instr} {integers : List Token}
    (h : SpellsImmediate integers (immediateOperand i)) :
    ((registerOperands i).map registerName ++ integers).length =
      i.opcode.format.operandCount := by
  have hsome := isSome_immediateOperand i
  rw [List.length_append, List.length_map, length_registerOperands, Format.operandCount, ← hsome]
  cases himm : immediateOperand i with
  | none =>
    rw [himm] at h
    rw [show integers = [] from h]
    rfl
  | some v =>
    rw [himm] at h
    obtain ⟨t, rfl, -⟩ := h
    rfl

/-- A spelled instruction assembles to its encoding. -/
theorem assembleTokens_of_spells {tokens : List Token} {i : Instr} (h : SpellsInstr tokens i) :
    assembleTokens tokens = .ok (encode i) := by
  obtain ⟨integers, rfl, himm⟩ := (spellsInstr_iff _ _).1 h
  have hlen := length_of_spellsImmediate himm
  have hcount : ((registerOperands i).map registerName).length = i.opcode.format.registerCount := by
    rw [List.length_map, length_registerOperands]
  rw [encode_eq_packWord]
  refine assembleTokens_of_operands hlen ?_ ?_
  · rw [List.take_left' hcount, registersOfTokens_map]
  · have hdrop := drop_operands hlen
    rw [List.drop_left' hcount] at hdrop
    rw [← isSome_immediateOperand] at hdrop ⊢
    cases hi : immediateOperand i with
    | none => rfl
    | some v =>
      rw [hi] at himm hdrop
      obtain ⟨t, rfl, ht⟩ := himm
      rw [Option.isSome_some, if_pos rfl, List.singleton_inj] at hdrop
      rw [Option.isSome_some, if_pos rfl, ← hdrop]
      exact wordOfToken_of_spells ht

/-- What a line with a mnemonic and the right number of operands is: a spelled instruction, or the
register error, or else the integer error. -/
theorem assembleTokens_cases {o : Opcode} {operands : List Token}
    (hlen : operands.length = o.format.operandCount) :
    ((∀ t ∈ operands.take o.format.registerCount, ∃ r, registerName r = t) ∧
      (∀ t ∈ operands.drop o.format.registerCount, ∃ v : Word, SpellsInteger t v.toInt) ∧
      ∃ i, i.opcode = o ∧ SpellsInstr (o.mnemonic.toList :: operands) i) ∨
    ((∃ t ∈ operands.take o.format.registerCount, ∀ r, registerName r ≠ t) ∧
      assembleTokens (o.mnemonic.toList :: operands) = .error .invalidRegister) ∨
    ((∀ t ∈ operands.take o.format.registerCount, ∃ r, registerName r = t) ∧
      (∃ t ∈ operands.drop o.format.registerCount, ∀ v : Word, ¬ SpellsInteger t v.toInt) ∧
      assembleTokens (o.mnemonic.toList :: operands) = .error .invalidAddress) := by
  obtain ⟨rs, hrs, hregs⟩ | ⟨hbad, herr⟩ :=
    registersOfTokens_cases (operands.take o.format.registerCount)
  · have hnames : ∀ t ∈ operands.take o.format.registerCount, ∃ r, registerName r = t := by
      rw [hrs]
      intro t ht
      obtain ⟨r, -, hr⟩ := List.mem_map.1 ht
      exact ⟨r, hr⟩
    have hcount : rs.length = o.format.registerCount := by
      rw [← List.length_map (f := registerName), ← hrs, List.length_take, hlen,
        Format.operandCount]
      omega
    have hspell {i : Instr} (hop : i.opcode = o) (hri : registerOperands i = rs)
        (himm : SpellsImmediate (operands.drop o.format.registerCount) (immediateOperand i)) :
        SpellsInstr (o.mnemonic.toList :: operands) i :=
      (spellsInstr_iff _ _).2 ⟨_, by rw [hop, hri, ← hrs, List.take_append_drop], himm⟩
    have hdrop := drop_operands hlen
    cases hword : o.format.hasImmediate with
    | false =>
      left
      obtain ⟨i, hop, hri, himm⟩ := exists_instr o rs 0 hcount
      rw [hword] at himm hdrop
      exact ⟨hnames, by simp [hdrop], i, hop, hspell hop hri (himm ▸ hdrop)⟩
    | true =>
      rw [hword, if_pos rfl] at hdrop
      obtain ⟨v, hv, -⟩ | ⟨hbad, herr⟩ :=
        wordOfToken_cases (operands.getD o.format.registerCount [])
      · left
        obtain ⟨i, hop, hri, himm⟩ := exists_instr o rs v hcount
        rw [hword, if_pos rfl] at himm
        exact ⟨hnames, by rw [hdrop]; simpa using ⟨v, hv⟩, i, hop,
          hspell hop hri (himm ▸ ⟨_, hdrop, hv⟩)⟩
      · exact .inr (.inr ⟨hnames, ⟨_, by rw [hdrop]; exact List.mem_singleton_self _, hbad⟩,
          assembleTokens_of_badInteger hlen hregs hword herr⟩)
  · exact .inr (.inl ⟨hbad, assembleTokens_of_badRegister hlen herr⟩)

/-- A first token that is no mnemonic is the opcode error. -/
theorem assembleTokens_of_noMnemonic {first : Token} (operands : List Token)
    (h : ∀ o : Opcode, o.mnemonic.toList ≠ first) :
    assembleTokens (first :: operands) = .error .unknownOpcode := by
  have hnone : opcodeOfToken first = none :=
    Option.eq_none_iff_forall_ne_some.2 fun o ho => h o (opcodeOfToken_eq_some ho)
  simp [assembleTokens, hnone]

/-- Accepted tokens spell an instruction, and the word is its encoding. -/
theorem spells_of_assembleTokens {tokens : List Token} {w : InstrWord}
    (h : assembleTokens tokens = .ok w) :
    ∃ i, SpellsInstr tokens i ∧ w = encode i ∧
      tokens.length = i.opcode.format.operandCount + 1 := by
  cases tokens with
  | nil => cases h
  | cons first operands =>
    by_cases hfirst : ∃ o : Opcode, o.mnemonic.toList = first
    · obtain ⟨o, rfl⟩ := hfirst
      by_cases hlen : operands.length = o.format.operandCount
      · obtain ⟨-, -, i, rfl, hi⟩ | ⟨-, herr⟩ | ⟨-, -, herr⟩ := assembleTokens_cases hlen
        · have hw := (assembleTokens_of_spells hi).symm.trans h
          exact ⟨i, hi, (Except.ok.inj hw).symm, by rw [List.length_cons, hlen]⟩
        · simp [herr] at h
        · simp [herr] at h
      · simp [assembleTokens_of_count hlen] at h
    · rw [assembleTokens_of_noMnemonic operands (not_exists.1 hfirst)] at h
      cases h

/-- Settles O51: accepted tokens spell an instruction, and the fields are those of its encoding. -/
theorem assembledLineIsOneInstruction : Obligations.AssembledLineIsOneInstruction := by
  refine ⟨by decide, fun line w h => ?_⟩
  obtain ⟨i, hi, rfl, hlen⟩ := spells_of_assembleTokens h
  obtain ⟨hop, -⟩ := encodingFields i
  obtain ⟨integers, htokens, -⟩ := (spellsInstr_iff _ _).1 hi
  exact ⟨i, hi, rfl, decodeOfEncodeIsTheInstruction i, by rw [htokens]; rfl, hlen, hop,
    usedRegisterFields_encode i, fun v => immField_encode⟩

/-- Settles O53: the checks in order, each of its own lemma. -/
theorem assemblerReportsErrorsInOrder : Obligations.AssemblerReportsErrorsInOrder := by
  intro line
  refine ⟨fun hnil => by rw [assembleLine, hnil]; rfl, fun first operands htokens => ?_⟩
  rw [assembleLine, htokens]
  refine ⟨assembleTokens_of_noMnemonic operands, ?_⟩
  rintro o rfl registers integers badRegister badInteger
  refine ⟨assembleTokens_of_count, fun hlen => ?_⟩
  obtain ⟨hregs, hints, i, -, hi⟩ | ⟨hbad, herr⟩ | ⟨hregs, hbad, herr⟩ := assembleTokens_cases hlen
  · refine ⟨?_, ?_, fun _ _ => ⟨_, assembleTokens_of_spells hi⟩⟩
    · rintro ⟨t, ht, hno⟩
      obtain ⟨r, hr⟩ := hregs t ht
      exact absurd hr (hno r)
    · rintro - ⟨t, ht, hno⟩
      obtain ⟨v, hv⟩ := hints t ht
      exact absurd hv (hno v)
  · exact ⟨fun _ => herr, fun hgood => absurd hbad hgood, fun hgood => absurd hbad hgood⟩
  · refine ⟨?_, fun _ _ => herr, fun _ hgood => absurd hbad hgood⟩
    rintro ⟨t, ht, hno⟩
    obtain ⟨r, hr⟩ := hregs t ht
    exact absurd hr (hno r)

/-! ### Every instruction has a spelling -/

/-- A token of a line: characters, none of them white space. -/
def IsToken (t : Token) : Prop := t ≠ [] ∧ ∀ c ∈ t, c.isWhitespace = false

/-- Tokens written with a blank after each are read back. -/
theorem exists_line_of_tokens {tokens : List Token} (h : ∀ t ∈ tokens, IsToken t) :
    ∃ line : String, tokensFrom [] line.toList = tokens := by
  refine ⟨String.ofList ((tokens.map fun t => (t, [' '])).flatMap fun p => p.1 ++ p.2), ?_⟩
  have hread := tokensFrom_parts (tokens.map fun t => (t, [' '])) [] fun p hp => by
    obtain ⟨t, ht, rfl⟩ := List.mem_map.1 hp
    exact ⟨(h t ht).1, (h t ht).2, by simp, by simp [Char.isWhitespace]⟩
  rw [List.append_nil] at hread
  rw [String.toList_ofList, hread, List.map_map]
  exact (List.append_nil _).trans (List.map_id tokens)

theorem isToken_mnemonic (o : Opcode) : IsToken o.mnemonic.toList := by
  have hall : o.mnemonic.toList.all (fun c => !c.isWhitespace) = true := by cases o <;> rfl
  exact ⟨by cases o <;> decide, by simpa using hall⟩

theorem isToken_registerName (r : Reg) : IsToken (registerName r) := by
  cases r <;> simp [IsToken, registerName, Char.isWhitespace]

/-- The characters of digits are no white space. -/
theorem isToken_digits {ds : List Nat} (hne : ds ≠ []) (hlt : ∀ d ∈ ds, d < 10) :
    IsToken (ds.map Nat.digitChar) := by
  have hdigit : ∀ d < 10, (Nat.digitChar d).isWhitespace = false := by decide
  refine ⟨by simpa using hne, fun c hc => ?_⟩
  obtain ⟨d, hd, rfl⟩ := List.mem_map.1 hc
  exact hdigit d (hlt d hd)

/-- Every natural number is the value of one or more digits, the most significant first. -/
theorem exists_digits (n : Nat) :
    ∃ ds : List Nat, ds ≠ [] ∧ (∀ d ∈ ds, d < 10) ∧ n = Nat.ofDigits 10 ds.reverse := by
  by_cases hn : n = 0
  · exact ⟨[0], by simp, by simp, by simp [hn]⟩
  · refine ⟨(Nat.digits 10 n).reverse, by simpa [Nat.digits_ne_nil_iff_ne_zero] using hn,
      fun d hd => Nat.digits_lt_base (by omega) (List.mem_reverse.1 hd), ?_⟩
    rw [List.reverse_reverse, Nat.ofDigits_digits]

/-- Every integer has a spelling, a token without white space. -/
theorem exists_spellsInteger (n : Int) : ∃ t, IsToken t ∧ SpellsInteger t n := by
  obtain ⟨ds, hne, hlt, hvalue⟩ := exists_digits n.natAbs
  obtain ⟨hnil, hspace⟩ := isToken_digits hne hlt
  by_cases hn : 0 ≤ n
  · exact ⟨_, ⟨hnil, hspace⟩, ds, n.natAbs, hne, hlt, hvalue, .inl ⟨rfl, by omega⟩⟩
  · exact ⟨'-' :: ds.map Nat.digitChar,
      ⟨List.cons_ne_nil _ _, List.forall_mem_cons.2 ⟨by decide, hspace⟩⟩,
      ds, n.natAbs, hne, hlt, hvalue, .inr ⟨rfl, by omega⟩⟩

/-- Every immediate, or none, has a spelling. -/
theorem exists_spellsImmediate (v : Option Word) :
    ∃ integers, (∀ t ∈ integers, IsToken t) ∧ SpellsImmediate integers v := by
  cases v with
  | none => exact ⟨[], by simp, rfl⟩
  | some v =>
    obtain ⟨t, htoken, ht⟩ := exists_spellsInteger v.toInt
    exact ⟨[t], by simpa using htoken, t, rfl, ht⟩

/-- Settles O52: mnemonic, register names and a spelled integer, written with blanks between, are
read back; and spelled tokens assemble. -/
theorem spelledInstructionAssembles : Obligations.SpelledInstructionAssembles := by
  refine ⟨fun i => ?_, fun line i h => assembleTokens_of_spells h⟩
  obtain ⟨integers, htokens, himm⟩ := exists_spellsImmediate (immediateOperand i)
  obtain ⟨line, hline⟩ := exists_line_of_tokens (List.forall_mem_cons.2
    ⟨isToken_mnemonic i.opcode, List.forall_mem_append.2
      ⟨List.forall_mem_map.2 fun r (_ : r ∈ registerOperands i) => isToken_registerName r,
        htokens⟩⟩)
  exact ⟨line, (spellsInstr_iff _ _).2 ⟨integers, hline, himm⟩⟩

/-! ### Programs -/

/-- A program assembles to the words of its lines, in order. -/
theorem assemble_eq_ok_iff (lines : List String) (ws : List InstrWord) :
    assemble lines = .ok ws ↔ List.Forall₂ (fun l w => assembleLine l = .ok w) lines ws := by
  induction lines generalizing ws with
  | nil => simp [assemble, eq_comm]
  | cons l lines ih =>
    simp only [List.forall₂_cons_left_iff, ← ih]
    cases hl : assembleLine l with
    | error x => simp [assemble, hl, bind, Except.bind]
    | ok w =>
      cases hls : assemble lines with
      | error x => simp [assemble, hl, hls, bind, Except.bind]
      | ok vs => simp [assemble, hl, hls, bind, Except.bind, pure, Except.pure, eq_comm]

/-- Settles O55: assembling is line by line, in order. -/
theorem assemblerIsAllOrNothing : Obligations.AssemblerIsAllOrNothing := by
  intro lines
  refine ⟨⟨?_, fun h => ?_⟩, fun ws h => ?_⟩
  · rintro ⟨ws, h⟩ l hl
    obtain ⟨n, hn, rfl⟩ := List.getElem_of_mem hl
    have hall := List.forall₂_iff_get.1 ((assemble_eq_ok_iff lines ws).1 h)
    exact ⟨_, hall.2 n hn (hall.1 ▸ hn)⟩
  · simp only [assemble_eq_ok_iff]
    induction lines with
    | nil => exact ⟨[], .nil⟩
    | cons l lines ih =>
      obtain ⟨⟨w, hw⟩, h⟩ := List.forall_mem_cons.1 h
      obtain ⟨ws, hws⟩ := ih h
      exact ⟨w :: ws, .cons hw hws⟩
  · obtain ⟨hlen, hall⟩ := List.forall₂_iff_get.1 ((assemble_eq_ok_iff lines ws).1 h)
    refine ⟨hlen.symm, fun n l hl => ?_⟩
    obtain ⟨hn, rfl⟩ := List.getElem?_eq_some_iff.1 hl
    exact ⟨_, List.getElem?_eq_getElem (hlen ▸ hn), hall n hn (hlen ▸ hn)⟩

end Sys2Proof.Machine
end
